-- ==== Sys2Proof/Word.lean ====
section
/-! DEFINITION. The widths of spec/00_scope.md R7 as types. Everything the spec treats as bits is an
unsigned bit vector (R10); there is no signed quantity in this core. -/

namespace Sys2Proof

/-- `BYTE_W` = `CHAR_W` = 8: an input or output byte, or a character code (R7). -/
abbrev Byte := BitVec 8

/-- `SYM_W` = 5: a symbol value, an address of `ENC_ROM` (R7). -/
abbrev Sym := BitVec 5

/-- `CMD_W` = 11: a command word (R7, R80). -/
abbrev CmdWord := BitVec 11

/-- `TMP_W` = 12: the transient value `t` inside one step (R7). -/
abbrev Tmp := BitVec 12

/-- An entry of `DEC_ROM`: `valid` in bit 5, `value` in bits 4 to 0 (spec/10_state.md R37). -/
abbrev RomEntry := BitVec 6

end Sys2Proof
end

