-- ==== Sys2Proof/Config.lean ====
section
/-! DEFINITION. What one instance of the core fixes: the three OPEN parameters of spec/00_scope.md R7.
They are a value that the machine carries, so that every statement "for all states" is a statement for
every instance (log 1, DESIGN CHOICE, safe). The spec leaves no result of a command open, so there is
no free value here. -/

namespace Sys2Proof

/-- The parameters of an instance (R7). No command reads or writes them as registers (R34). -/
structure Params where
  /-- `STRICT_PAD`: whether `DEC_END` rejects non-zero left-over bits (D11). -/
  strictPad : Bool
  /-- `POS_W`: the width of `dec_pos` and `dec_err_pos`, a positive integer (D10). -/
  posW : Nat
  /-- `PIPE`: whether there is an output register stage (D18). -/
  pipe : Bool
deriving DecidableEq, Repr

/-- The reference values of R7: `STRICT_PAD` = 1, `POS_W` = 32, `PIPE` = 0. -/
def Params.reference : Params := { strictPad := true, posW := 32, pipe := false }

end Sys2Proof
end

