-- ==== Sys2Proof/Syntax.lean ====
section
/-! DEFINITION. The Crock32 command set, version 1: one constructor for each row of
spec/opcode_table.json (spec/30_encoding.md R82). Every command carries its 8 `data` bits; where the
spec ignores them (R85) so does the command's meaning (log 10, DESIGN CHOICE, safe). -/

namespace Sys2Proof

/-- A command (R82). -/
inductive Instr where
  /-- `NOP`, R160. -/
  | nop (data : Byte)
  /-- `ENC_PUSH`, R110: the operand is the input byte. -/
  | encPush (b : Byte)
  /-- `ENC_END`, R111. -/
  | encEnd (data : Byte)
  /-- `ENC_CLR`, R112. -/
  | encClr (data : Byte)
  /-- The reserved opcode `0b100`, R161. -/
  | illegal100 (data : Byte)
  /-- `DEC_PUSH`, R130 and R131: the operand is the character code. -/
  | decPush (c : Byte)
  /-- `DEC_END`, R132. -/
  | decEnd (data : Byte)
  /-- `DEC_CLR`, R133. -/
  | decClr (data : Byte)
deriving DecidableEq, Repr

/-- Which part of the core a command belongs to (R20's column "half", R25). -/
inductive Half where
  | control
  | encoder
  | decoder
deriving DecidableEq, Repr

/-- The half of each command: `NOP` and the reserved opcode belong to neither (spec/42_control.md). -/
def Instr.half : Instr → Half
  | .nop _ => .control
  | .encPush _ => .encoder
  | .encEnd _ => .encoder
  | .encClr _ => .encoder
  | .illegal100 _ => .control
  | .decPush _ => .decoder
  | .decEnd _ => .decoder
  | .decClr _ => .decoder

end Sys2Proof
end

