-- ==== Sys2Proof/WellFormed.lean ====
section
/-! DEFINITION. Well-formedness. Every command is legal with every operand (spec/30_encoding.md R82,
R85; spec/42_control.md R165), and the types already bound every field, so a command has no check of
its own to fail. What can be ill-formed is a number offered as a command word, and an instance's
parameters. -/

namespace Sys2Proof

/-- Every command with every `data` value is well-formed (R82, R85, R165). -/
def Instr.wellFormed : Instr → Bool
  | .nop _ => true
  | .encPush _ => true
  | .encEnd _ => true
  | .encClr _ => true
  | .illegal100 _ => true
  | .decPush _ => true
  | .decEnd _ => true
  | .decClr _ => true

/-- A number is a command word when it fits the 11 bits of the `cmd` port (R80, R92). -/
def cmdWordWellFormed (w : Nat) : Bool := decide (w < 2 ^ 11)

/-- `POS_W` is a positive integer (spec/00_scope.md R7). -/
def Params.wellFormed (p : Params) : Bool := decide (0 < p.posW)

end Sys2Proof
end

