-- ==== Sys2Proof/Decode.lean ====
section
/-! DEFINITION. Decoding and encoding of command words, from the tables of spec/30_encoding.md R80 and
R82. Decoding is a function of the word alone, total on all 2048 words (R83); a number that is no
11-bit word is rejected by name. -/

namespace Sys2Proof

/-- The field `op` = `cmd[10:8]` (R80). -/
def opField (w : CmdWord) : BitVec 3 := w.extractLsb' 8 3

/-- The field `data` = `cmd[7:0]` (R80, R81). -/
def dataField (w : CmdWord) : Byte := w.extractLsb' 0 8

/-- The opcode map of R82, by the three bits `op[2]`, `op[1]`, `op[0]`: the first selects the half, the
other two the action (R80). -/
def decodeOp (half action1 action0 : Bool) (d : Byte) : Instr :=
  match half, action1, action0 with
  | false, false, false => .nop d
  | false, false, true => .encPush d
  | false, true, false => .encEnd d
  | false, true, true => .encClr d
  | true, false, false => .illegal100 d
  | true, false, true => .decPush d
  | true, true, false => .decEnd d
  | true, true, true => .decClr d

/-- The command a word stands for (R82, R83). -/
def decode (w : CmdWord) : Instr :=
  decodeOp ((opField w).getLsbD 2) ((opField w).getLsbD 1) ((opField w).getLsbD 0) (dataField w)

/-- Why a number is no command word. -/
inductive DecodeReject where
  /-- It does not fit the 11 bits of the `cmd` port (R80, R92; log 12). -/
  | notElevenBits
deriving DecidableEq, Repr

/-- Decoding of any number, rejecting by name what the `cmd` port cannot carry. -/
def decodeNat (w : Nat) : Except DecodeReject Instr :=
  if cmdWordWellFormed w then .ok (decode (BitVec.ofNat 11 w)) else .error .notElevenBits

/-- The instruction read from the low `nbits` bits of `w`, the bits above them 0, numbered as
spec/opcode_table.json numbers them. -/
def decodeTableWord (nbits w : Nat) : Option Instr :=
  match decodeNat (w % 2 ^ nbits) with
  | .ok i => some i
  | .error .notElevenBits => none

/-- The `op` of each row of R82. -/
def Instr.opcode : Instr → BitVec 3
  | .nop _ => 0b000
  | .encPush _ => 0b001
  | .encEnd _ => 0b010
  | .encClr _ => 0b011
  | .illegal100 _ => 0b100
  | .decPush _ => 0b101
  | .decEnd _ => 0b110
  | .decClr _ => 0b111

/-- The `data` field of a command (R80). -/
def Instr.data : Instr → Byte
  | .nop d => d
  | .encPush b => b
  | .encEnd d => d
  | .encClr d => d
  | .illegal100 d => d
  | .decPush c => c
  | .decEnd d => d
  | .decClr d => d

/-- The word of a command: `{op, data}` (R80, R82). -/
def encode (i : Instr) : CmdWord := i.opcode ++ i.data

end Sys2Proof
end

