-- ==== Sys2Proof/Machine/State.lean ====
section
/-! DEFINITION. The state as plain data: the nine registers of spec/10_state.md R20, the output
registers of R36, and four fields of the model's own (log 1, 3, 5, 6) that carry the argument and the
second result of the spec's `step : Params -> State -> Cmd -> State x List OutEvent`
(spec/00_scope.md R9). -/

namespace Sys2Proof.Machine

/-- The verdict of a `DecEnd` event (spec/30_encoding.md R97); the fourth code is never produced (U6). -/
inductive DecStatus where
  | ok
  | invalidChar
  | nonzeroPad
deriving DecidableEq, Repr

/-- An output event (R90). -/
inductive OutEvent where
  /-- `EncSym(code)`: the next character of the encoded string. -/
  | encSym (code : Byte)
  /-- `EncEnd`: the encoded string is complete. -/
  | encEnd
  /-- `DecByte(byte)`: the next byte of the decoded buffer, provisional. -/
  | decByte (byte : Byte)
  /-- `DecEnd(status, pos, char)`: the text is complete; its verdict. -/
  | decEnd (status : DecStatus) (pos : Nat) (char : Byte)
deriving DecidableEq, Repr

/-- The signals of the three output ports (R93, R94, R95), in the spec's order. -/
structure OutPorts where
  encValid : Bool
  encN : BitVec 2
  encSym0 : Byte
  encSym1 : Byte
  encLast : Bool
  decValid : Bool
  decByte : Byte
  decEndValid : Bool
  decEndStatus : BitVec 2
  decEndPos : Nat
  decEndChar : Byte
deriving DecidableEq, Repr

/-- "No event": every `valid` 0 and every other signal 0 (R98; the reset value of R36). -/
def OutPorts.idle : OutPorts :=
  { encValid := false, encN := 0, encSym0 := 0x00, encSym1 := 0x00, encLast := false,
    decValid := false, decByte := 0x00,
    decEndValid := false, decEndStatus := 0, decEndPos := 0, decEndChar := 0x00 }

/-- What the host drives on the input ports in one clock cycle (R92). -/
structure CycleIn where
  rst : Bool
  cmdValid : Bool
  cmd : CmdWord
deriving DecidableEq, Repr

/-- A cycle in which the host presents nothing (`IDLE`, R88; spec/42_control.md R164). -/
def CycleIn.idle : CycleIn := { rst := false, cmdValid := false, cmd := 0 }

/-- The state of the machine. -/
structure State where
  /-- The instance's parameters (R7): constants, no register (log 1). -/
  params : Params
  /-- What the host drives in the coming cycles, the next one first (log 3). -/
  inputs : List CycleIn
  /-- `enc_acc` (R21). -/
  encAcc : BitVec 4
  /-- `enc_cnt` (R22). -/
  encCnt : BitVec 3
  /-- `dec_acc` (R23). -/
  decAcc : BitVec 7
  /-- `dec_cnt` (R24). -/
  decCnt : BitVec 3
  /-- `dec_pos` (R31), always reduced modulo 2^`POS_W` (log 2). -/
  decPos : Nat
  /-- `dec_err` (R32). -/
  decErr : Bool
  /-- `dec_err_pos` (R33; log 2). -/
  decErrPos : Nat
  /-- `dec_err_char` (R33). -/
  decErrChar : Byte
  /-- `ill_cmd` (R32). -/
  illCmd : Bool
  /-- The event list of the step, in the order emitted (R90, R91; log 5). -/
  events : List OutEvent
  /-- The output registers of a `PIPE` = 1 instance (R36); at "no event" when `PIPE` = 0 (log 7). -/
  outReg : OutPorts
  /-- The output-port signals of the cycle that the last step ended (R241; log 6). -/
  ports : OutPorts
deriving DecidableEq, Repr

/-- The spec's `reset` (R35, R233) for the instance with parameters `p`: every register 0, the output
registers at "no event". -/
def State.resetWith (p : Params) : State :=
  { params := p, inputs := [], encAcc := 0, encCnt := 0, decAcc := 0, decCnt := 0, decPos := 0,
    decErr := false, decErrPos := 0, decErrChar := 0x00, illCmd := false,
    events := [], outReg := OutPorts.idle, ports := OutPorts.idle }

/-- The machine right after reset, at the reference parameters of R7 (log 1). -/
def State.reset : State := State.resetWith Params.reference

/-- The ways the machine could stop. There is none: the spec's step "never gets stuck", and its three
exceptions are state changes after which the machine goes on (R9, R165, R200; log 11). Raised by
nothing; safe. -/
inductive Fault where
deriving DecidableEq, Repr

/-- The ways the model could decline a command. -/
inductive Refusal where
  /-- The host interface's refusal of a command with no meaning yet. Raised by no arm of `exec`, since
  the spec's step "never refuses" (R9); safe. -/
  | notModelled (mnemonic : String)
deriving DecidableEq, Repr

end Sys2Proof.Machine
end

