-- ==== Sys2Proof/Machine/Flags.lean ====
section
/-! DEFINITION. The two flags `dec_err` and `ill_cmd` with the registers latched beside the first
(spec/10_state.md R32, R33), and the one condition a command computes from data: the padding test of
`DEC_END`. There are no condition codes (R32). -/

namespace Sys2Proof.Machine

/-- The padding test of `DEC_END`: `STRICT_PAD` = 1 and `dec_cnt` > 0 and `dec_acc` != 0
(spec/41_decoder.md R132). -/
def State.padFault (s : State) : Bool :=
  s.params.strictPad && decide (0 < s.decCnt.toNat) && decide (s.decAcc ≠ 0)

/-- Latch the decode error: `dec_err`, `dec_err_pos`, `dec_err_char` (R32, R33). -/
def State.latchErr (s : State) (pos : Nat) (c : Byte) : State :=
  { s with decErr := true, decErrPos := pos, decErrChar := c }

/-- Set the sticky flag `ill_cmd` (R32). -/
def State.setIllCmd (s : State) : State := { s with illCmd := true }

/-- `dec_err <- 0 ; dec_err_pos <- 0 ; dec_err_char <- 0` (R132, R133). -/
def State.clearErr (s : State) : State :=
  { s with decErr := false, decErrPos := 0, decErrChar := 0x00 }

end Sys2Proof.Machine
end

