-- ==== Sys2Proof/Machine/Rom.lean ====
section
/-! DEFINITION. The two read-only tables (spec/10_state.md R37, spec/20_memory.md R60 to R65). They are
constants and no part of State: nothing can alter them (R71, R233). -/

namespace Sys2Proof.Machine

/-- `ENC_ROM` in address order (R60): the character codes of `0123456789ABCDEFGHJKMNPQRSTVWXYZ`. -/
def encRomTable : List Byte :=
  [0x30, 0x31, 0x32, 0x33, 0x34, 0x35, 0x36, 0x37] ++
  [0x38, 0x39, 0x41, 0x42, 0x43, 0x44, 0x45, 0x46] ++
  [0x47, 0x48, 0x4A, 0x4B, 0x4D, 0x4E, 0x50, 0x51] ++
  [0x52, 0x53, 0x54, 0x56, 0x57, 0x58, 0x59, 0x5A]

/-- `MemRead(ENC_ROM, i)` (R11, R60). The table has 32 entries, so the default is never read. -/
def encRom (i : Sym) : Byte := encRomTable.getD i.toNat 0x00

/-- A row of `DEC_ROM` whose 16 entries are invalid, `0b0_00000` (R62). -/
def decRomInvalidRow : List RomEntry := List.replicate 16 0x00

/-- The row 0x30 of `DEC_ROM`: the digits (R62). -/
def decRomDigitRow : List RomEntry :=
  [0x20, 0x21, 0x22, 0x23, 0x24, 0x25, 0x26, 0x27] ++
  [0x28, 0x29, 0x00, 0x00, 0x00, 0x00, 0x00, 0x00]

/-- The rows 0x40 and 0x60 of `DEC_ROM`: the letters `A` to `O` (R62). -/
def decRomLetterRowA : List RomEntry :=
  [0x00, 0x2A, 0x2B, 0x2C, 0x2D, 0x2E, 0x2F, 0x30] ++
  [0x31, 0x21, 0x32, 0x33, 0x21, 0x34, 0x35, 0x20]

/-- The rows 0x50 and 0x70 of `DEC_ROM`: the letters `P` to `Z` (R62). -/
def decRomLetterRowP : List RomEntry :=
  [0x36, 0x37, 0x38, 0x39, 0x3A, 0x3B, 0x3B, 0x3C] ++
  [0x3D, 0x3E, 0x3F, 0x00, 0x00, 0x00, 0x00, 0x00]

/-- The grid of R62, one row for each high digit of the code; the rows 0x80 to 0xF0 are invalid (D8). -/
def decRomGrid : List (List RomEntry) :=
  [decRomInvalidRow, decRomInvalidRow, decRomInvalidRow, decRomDigitRow,
   decRomLetterRowA, decRomLetterRowP, decRomLetterRowA, decRomLetterRowP] ++
  List.replicate 8 decRomInvalidRow

/-- `MemRead(DEC_ROM, c)` (R11, R62). The grid has 16 rows of 16 entries, so no default is ever read. -/
def decRom (c : Byte) : RomEntry := (decRomGrid.getD (c.toNat / 16) []).getD (c.toNat % 16) 0x00

/-- The field `valid` of an entry, bit 5 (R37). -/
def romValid (e : RomEntry) : Bool := e.getLsbD 5

/-- The field `value` of an entry, bits 4 to 0 (R37). -/
def romValue (e : RomEntry) : Sym := e.extractLsb' 0 5

/-- Whether a character code is one of the valid codes of R62. -/
def validChar (c : Byte) : Bool := romValid (decRom c)

/-- The 5-bit value of a valid character code (R62). -/
def charValue (c : Byte) : Sym := romValue (decRom c)

/-- Step 1 of R63, the substitution of `O`, `I`, `L`, `U` in either case. -/
def substituteChar (c : Byte) : Byte :=
  if c = 0x6F ∨ c = 0x4F then 0x30
  else if c = 0x69 ∨ c = 0x49 ∨ c = 0x6C ∨ c = 0x4C then 0x31
  else if c = 0x75 ∨ c = 0x55 then 0x56
  else c

/-- An ASCII digit (R63). -/
def isDigit (c : Byte) : Bool := decide (0x30 ≤ c.toNat ∧ c.toNat ≤ 0x39)

/-- An ASCII upper-case letter (R63). -/
def isUpper (c : Byte) : Bool := decide (0x41 ≤ c.toNat ∧ c.toNat ≤ 0x5A)

/-- An ASCII lower-case letter (R63). -/
def isLower (c : Byte) : Bool := decide (0x61 ≤ c.toNat ∧ c.toNat ≤ 0x7A)

/-- `upper` of one code (spec/43_messages_and_laws.md R182). -/
def upperChar (c : Byte) : Byte := if isLower c then c - 0x20 else c

/-- `lower` of one code (R182). -/
def lowerChar (c : Byte) : Byte := if isUpper c then c + 0x20 else c

/-- `skipCount` of R63: how many of `I`, `L`, `O`, `U` are alphabetically less than the letter. -/
def skipCount (letter : Byte) : Nat :=
  ([0x49, 0x4C, 0x4F, 0x55] : List Byte).countP (fun x => decide (x.toNat < letter.toNat))

/-- The entry R63 defines for a character code: steps 1 to 4. -/
def decRomByRule (c : Byte) : RomEntry :=
  let c1 := substituteChar c
  if isDigit c1 then BitVec.ofNat 6 (0x20 + (c1.toNat - 0x30))
  else if isUpper (upperChar c1) then
    BitVec.ofNat 6 (0x20 + ((upperChar c1).toNat - 0x41 + 10 - skipCount (upperChar c1)))
  else 0x00

/-- The canonical symbol of a valid code's value (R12, R190). -/
def canonicalChar (c : Byte) : Byte := encRom (charValue c)

end Sys2Proof.Machine
end

