-- ==== Sys2Proof/Machine/Operands.lean ====
section
/-! DEFINITION. The operand `data` on its way through a step: the transient value `t`, the slices that
leave it and the bits that stay (spec/40_encoder.md R110, R111; spec/41_decoder.md R130). `data` is
used as it stands, unsigned and unscaled (spec/30_encoding.md R81). -/

namespace Sys2Proof.Machine

/-- `t = (zext_12(enc_acc) << 8) | zext_12(b)` (R110). -/
def encShiftIn (acc : BitVec 4) (b : Byte) : Tmp := (acc.setWidth 12 <<< 8) ||| b.setWidth 12

/-- `t = (zext_12(dec_acc) << 5) | zext_12(v)` (R130). -/
def decShiftIn (acc : BitVec 7) (v : Sym) : Tmp := (acc.setWidth 12 <<< 5) ||| v.setWidth 12

/-- The top 5 of `n` buffered bits, `(t >> (n - 5)) & 0b11111` (R110). -/
def takeSym (t : Tmp) (n : Nat) : Sym := ((t >>> (n - 5)) &&& 0b11111).setWidth 5

/-- The top 8 of `n` buffered bits, `(t >> (n - 8)) & 0xFF` (R130). -/
def takeByte (t : Tmp) (n : Nat) : Byte := ((t >>> (n - 8)) &&& 0xFF).setWidth 8

/-- The `n` bits not yet sent, `t & (2^n - 1)` (R110, R130, R28). -/
def keepLow (t : Tmp) (n : Nat) : Tmp := t &&& BitVec.ofNat 12 (2 ^ n - 1)

/-- The final symbol of a message: the `cnt` buffered bits, then `5 - cnt` zeros,
`(zext_5(enc_acc) << (5 - enc_cnt)) & 0b11111` (R111, C3). -/
def finalSym (acc : BitVec 4) (cnt : Nat) : Sym := (acc.setWidth 5 <<< (5 - cnt)) &&& 0b11111

end Sys2Proof.Machine
end

