-- ==== Sys2Proof/Machine/Ops.lean ====
section
/-! DEFINITION. The named operations over registers and events that the meanings share, and the
exceptions: raising one, and the return from the error condition (spec/60_exceptions.md). -/

namespace Sys2Proof.Machine

/-- `emit E`: append the event to the step's event list (spec/00_scope.md R11). -/
def State.emit (s : State) (e : OutEvent) : State := { s with events := s.events ++ [e] }

/-- Write the encoder half: `enc_acc` and `enc_cnt` (spec/10_state.md R21, R22). -/
def State.setEnc (s : State) (acc : BitVec 4) (cnt : BitVec 3) : State :=
  { s with encAcc := acc, encCnt := cnt }

/-- Return the encoder to idle (spec/40_encoder.md R111, R112). -/
def State.clearEnc (s : State) : State := s.setEnc 0 0

/-- Write the decoder's data registers: `dec_acc`, `dec_cnt`, `dec_pos` (R23, R24, R31). -/
def State.setDec (s : State) (acc : BitVec 7) (cnt : BitVec 3) (pos : Nat) : State :=
  { s with decAcc := acc, decCnt := cnt, decPos := pos }

/-- `(dec_pos + 1) mod 2^POS_W` (R31). -/
def State.nextPos (s : State) : Nat := (s.decPos + 1) % 2 ^ s.params.posW

/-- The three exceptions and what each is raised with (R200). -/
inductive Exc where
  | invalidChar (pos : Nat) (c : Byte)
  | nonzeroPad (pos : Nat)
  | illegalCmd
deriving DecidableEq, Repr

/-- `raise X`: exactly the state change and event of R201, R202, R203. It never aborts the step (R11). -/
def raise (s : State) (x : Exc) : State :=
  match x with
  | .invalidChar pos c => s.latchErr pos c
  | .nonzeroPad pos => s.emit (.decEnd .nonzeroPad pos 0x00)
  | .illegalCmd => s.setIllCmd

/-- Return the whole decoder half to idle: the end of a text (spec/41_decoder.md R132, R133) and the
only way, beside reset, out of the error condition (R210). -/
def State.clearDec (s : State) : State := (s.setDec 0 0 0).clearErr

end Sys2Proof.Machine
end

