-- ==== Sys2Proof/Machine/Control.lean ====
section
/-! DEFINITION. The command words that belong to neither half (spec/42_control.md). -/

namespace Sys2Proof.Machine

/-- `NOP`: reads nothing, writes nothing, emits nothing (R160). -/
def execNop (s : State) : Host.Outcome State Fault Refusal :=
  .next s

/-- The reserved opcode `0b100`: raises `ILLEGAL_CMD` (R161, R203). -/
def execIllegal100 (s : State) : Host.Outcome State Fault Refusal :=
  .next (raise s .illegalCmd)

end Sys2Proof.Machine
end

