-- ==== Sys2Proof/Machine/Decoder.lean ====
section
/-! DEFINITION. The decoder commands (spec/41_decoder.md). None touches the encoder or `ill_cmd`
(spec/10_state.md R25). -/

namespace Sys2Proof.Machine

/-- The `else` branch of R130: a valid character of value `v` while `dec_err` = 0. -/
def decPushValid (v : Sym) (s : State) : State :=
  let t := decShiftIn s.decAcc v
  let n := s.decCnt.toNat + 5
  if n ≥ 8 then
    let n1 := n - 8
    (s.emit (.decByte (takeByte t n))).setDec ((keepLow t n1).setWidth 7) (BitVec.ofNat 3 n1) s.nextPos
  else
    s.setDec ((keepLow t n).setWidth 7) (BitVec.ofNat 3 n) s.nextPos

/-- The state after `DEC_PUSH c` (R130; R131 while `dec_err` = 1). -/
def decPushState (c : Byte) (s : State) : State :=
  if s.decErr then s
  else
    let e := decRom c
    if romValid e then decPushValid (romValue e) s
    else raise s (.invalidChar s.decPos c)

/-- `DEC_PUSH`: take in one character (R130, R131). -/
def execDecPush (c : Byte) (s : State) : Host.Outcome State Fault Refusal :=
  .next (decPushState c s)

/-- The verdict `DEC_END` emits (R132, R97), before the clearing. -/
def decVerdict (s : State) : State :=
  if s.decErr then s.emit (.decEnd .invalidChar s.decErrPos s.decErrChar)
  else if s.padFault then raise s (.nonzeroPad s.decPos)
  else s.emit (.decEnd .ok s.decPos 0x00)

/-- `DEC_END`: report the verdict and return the decoder to idle (R132). -/
def execDecEnd (s : State) : Host.Outcome State Fault Refusal :=
  .next (decVerdict s).clearDec

/-- `DEC_CLR`: abandon the text in progress, with no output (R133). -/
def execDecClr (s : State) : Host.Outcome State Fault Refusal :=
  .next s.clearDec

end Sys2Proof.Machine
end

