-- ==== Sys2Proof/Machine/Encoder.lean ====
section
/-! DEFINITION. The encoder commands (spec/40_encoder.md). None writes a flag or raises an exception,
and none touches the decoder (R204, spec/10_state.md R25). -/

namespace Sys2Proof.Machine

/-- The state after `ENC_PUSH b` (R110). -/
def encPushState (b : Byte) (s : State) : State :=
  let t := encShiftIn s.encAcc b
  let n := s.encCnt.toNat + 8
  let s1 := s.emit (.encSym (encRom (takeSym t n)))
  let n1 := n - 5
  if n1 ≥ 5 then
    let n2 := n1 - 5
    (s1.emit (.encSym (encRom (takeSym t n1)))).setEnc ((keepLow t n2).setWidth 4) (BitVec.ofNat 3 n2)
  else
    s1.setEnc ((keepLow t n1).setWidth 4) (BitVec.ofNat 3 n1)

/-- `ENC_PUSH`: take in one byte, send out the one or two symbols it completes (R110). -/
def execEncPush (b : Byte) (s : State) : Host.Outcome State Fault Refusal :=
  .next (encPushState b s)

/-- The state after `ENC_END` (R111). -/
def encEndState (s : State) : State :=
  let s1 :=
    if s.encCnt.toNat > 0 then s.emit (.encSym (encRom (finalSym s.encAcc s.encCnt.toNat))) else s
  (s1.emit .encEnd).clearEnc

/-- `ENC_END`: send out the final partial symbol, if any, then the end marker; idle (R111). -/
def execEncEnd (s : State) : Host.Outcome State Fault Refusal :=
  .next (encEndState s)

/-- `ENC_CLR`: abandon the byte buffer in progress, with no output (R112). -/
def execEncClr (s : State) : Host.Outcome State Fault Refusal :=
  .next s.clearEnc

end Sys2Proof.Machine
end

