-- ==== Sys2Proof/Machine/Dispatch.lean ====
section
/-! DEFINITION. One arm for each command (spec/30_encoding.md R82); the ignored `data` bits of R85 stop
here. -/

namespace Sys2Proof.Machine

def exec (i : Instr) (s : State) : Host.Outcome State Fault Refusal :=
  match i with
  | .nop _ => Sys2Proof.Machine.execNop s
  | .encPush b => Sys2Proof.Machine.execEncPush b s
  | .encEnd _ => Sys2Proof.Machine.execEncEnd s
  | .encClr _ => Sys2Proof.Machine.execEncClr s
  | .illegal100 _ => Sys2Proof.Machine.execIllegal100 s
  | .decPush c => Sys2Proof.Machine.execDecPush c s
  | .decEnd _ => Sys2Proof.Machine.execDecEnd s
  | .decClr _ => Sys2Proof.Machine.execDecClr s

end Sys2Proof.Machine
end

