-- ==== Sys2Proof/Machine/Clock.lean ====
section
/-! DEFINITION. One clock cycle: sampling the inputs, reset, the step, the output register stage and
the output ports (spec/70_reset_and_hazards.md R230 to R232, R241; spec/30_encoding.md R92 to R98). -/

namespace Sys2Proof.Machine

/-- The status code of a verdict (R97). -/
def statusCode : DecStatus → BitVec 2
  | .ok => 0
  | .invalidChar => 1
  | .nonzeroPad => 2

/-- Drive one event onto the ports: a first `EncSym` on lane 0, a second on lane 1 (R91, R93), `EncEnd`
on `enc_last` (R93), `DecByte` and `DecEnd` on their own ports (R94, R95). -/
def drivePorts (p : OutPorts) (e : OutEvent) : OutPorts :=
  match e with
  | .encSym code =>
    if p.encN = 0 then { p with encValid := true, encN := 1, encSym0 := code }
    else { p with encValid := true, encN := 2, encSym1 := code }
  | .encEnd => { p with encValid := true, encLast := true }
  | .decByte b => { p with decValid := true, decByte := b }
  | .decEnd status pos char =>
    { p with decEndValid := true, decEndStatus := statusCode status, decEndPos := pos, decEndChar := char }

/-- The port values that carry an event list, every unused signal 0 (R93, R94, R95, R98). -/
def portsOf (es : List OutEvent) : OutPorts := es.foldl drivePorts OutPorts.idle

/-- The status wires, each driven directly by the register of the same name (R96). -/
structure StatusWires where
  decErr : Bool
  decErrPos : Nat
  decErrChar : Byte
  illCmd : Bool
deriving DecidableEq, Repr

/-- The status wires in the current cycle, whatever `PIPE` is (R96). -/
def State.statusWires (s : State) : StatusWires :=
  { decErr := s.decErr, decErrPos := s.decErrPos, decErrChar := s.decErrChar, illCmd := s.illCmd }

/-- A step's event list starts empty (R11). -/
def State.beginStep (s : State) : State := { s with events := [] }

/-- A clock edge with `rst` = 1: every register of R20 takes its reset value (R231); the parameters and
what the host drives next are no registers. -/
def State.resetRegs (s : State) : State := { State.resetWith s.params with inputs := s.inputs }

/-- The outputs at a clock edge, `before` being the state in the cycle that ends and `after` the
registers and event list the edge gives. The output registers take the event list of the step taken at
that edge (R36), an instance with `PIPE` = 0 having none. The ports of the cycle that ends carried that
event list when `PIPE` = 0, and the output registers as they stood when `PIPE` = 1 (R241). -/
def latchOutputs (before after : State) : State :=
  { after with
    outReg := if after.params.pipe then portsOf after.events else OutPorts.idle
    ports := if after.params.pipe then before.outReg else portsOf after.events }

/-- Go on from a next state; a stop stays a stop. -/
def andThen (o : Host.Outcome State Fault Refusal) (f : State → Host.Outcome State Fault Refusal) :
    Host.Outcome State Fault Refusal :=
  match o with
  | .next s => f s
  | .fault r => .fault r
  | .refused r => .refused r

/-- One clock cycle with the inputs `c`: reset first (R232), else the command if there is one (R230),
else no step (spec/42_control.md R164). -/
def cycle (c : CycleIn) (s : State) : Host.Outcome State Fault Refusal :=
  if c.rst then .next (latchOutputs s s.resetRegs)
  else if c.cmdValid then
    andThen (exec (decode c.cmd) s.beginStep) (fun t => .next (latchOutputs s t))
  else .next (latchOutputs s s.beginStep)

/-- A cycle in which the host presents the command word `w` (R92). -/
def present (w : CmdWord) : CycleIn := { rst := false, cmdValid := true, cmd := w }

/-- What the ports carry in each of a sequence of cycles: the waveform of the outputs (R241). -/
def waveform : List CycleIn → State → List OutPorts
  | [], _ => []
  | c :: cs, s =>
    match cycle c s with
    | .next t => t.ports :: waveform cs t
    | .fault _ => []
    | .refused _ => []

end Sys2Proof.Machine
end

