-- ==== Sys2Proof/Machine/Step.lean ====
section
/-! DEFINITION. The step: one clock cycle with what the host drives next (spec/00_scope.md R9,
spec/70_reset_and_hazards.md R230). There is no program counter and no fetch (spec/10_state.md R30):
the head of `inputs` is what the ports carry in this cycle. -/

namespace Sys2Proof.Machine

/-- One clock cycle. When the host's schedule is used up it presents nothing (log 3, DESIGN CHOICE). -/
def step (s : State) : Host.Outcome State Fault Refusal :=
  match s.inputs with
  | [] => cycle CycleIn.idle s
  | c :: rest => cycle c { s with inputs := rest }

/-- The state in which the host presents, in the very next cycle, the command of the low `nbits` bits
of `w`; a number that is no command word cannot be presented, and the cycle is idle (log 4, log 12). -/
def State.withFetchWord (s : State) (nbits w : Nat) : State :=
  let v := w % 2 ^ nbits
  { s with
    inputs := { rst := false, cmdValid := cmdWordWellFormed v, cmd := BitVec.ofNat 11 v } :: s.inputs }

end Sys2Proof.Machine
end

