-- ==== Sys2Proof/Machine/Messages.lean ====
section
/-! DEFINITION. Messages (spec/43_messages_and_laws.md): running command sequences, the pseudo-instructions
of spec/30_encoding.md R88, the message results `encode_hw` and `decode_hw` (R170, R171), the document's
functions `encode_ref` and `decode_ref` with an unbounded accumulator (R172, R173), and the packing of
spec/20_memory.md R50 on bit strings. -/

namespace Sys2Proof.Machine

/-- Execute commands one after another, in program order (R67); the event lists of the steps follow each
other in `events`. -/
def run : List Instr → State → Host.Outcome State Fault Refusal
  | [], s => .next s
  | i :: is, s => andThen (exec i s) (run is)

/-- The pseudo-instruction `ENCODE b0, ..., bN-1` (R88). -/
def encodeProgram (bs : List Byte) : List Instr := bs.map Instr.encPush ++ [.encEnd 0x00]

/-- The pseudo-instruction `DECODE "c0...cM-1"` (R88). -/
def decodeProgram (cs : List Byte) : List Instr := cs.map Instr.decPush ++ [.decEnd 0x00]

/-- The pseudo-instruction `IDLE` (R88). -/
def idleProgram : List Instr := [.nop 0x00]

/-- The half whose commands emit an event (R90). -/
def OutEvent.half : OutEvent → Half
  | .encSym _ => .encoder
  | .encEnd => .encoder
  | .decByte _ => .decoder
  | .decEnd _ _ _ => .decoder

/-- The events of one half, in order. -/
def eventsOfHalf (h : Half) (es : List OutEvent) : List OutEvent :=
  es.filter (fun e => decide (e.half = h))

/-- The code of an `EncSym` event. -/
def OutEvent.symCode? : OutEvent → Option Byte
  | .encSym code => some code
  | .encEnd => none
  | .decByte _ => none
  | .decEnd _ _ _ => none

/-- The byte of a `DecByte` event. -/
def OutEvent.byte? : OutEvent → Option Byte
  | .encSym _ => none
  | .encEnd => none
  | .decByte b => some b
  | .decEnd _ _ _ => none

/-- The codes of all `EncSym` events, in order (R170). -/
def encSyms (es : List OutEvent) : List Byte := es.filterMap OutEvent.symCode?

/-- The bytes of all `DecByte` events, in order (R171). -/
def decBytes (es : List OutEvent) : List Byte := es.filterMap OutEvent.byte?

/-- The result of a decode message (R171). An error carries no bytes: those sent before it are void
(spec/41_decoder.md R136). -/
inductive DecodeResult where
  | ok (ys : List Byte)
  | invalidChar (pos : Nat) (c : Byte)
  | nonzeroPad (pos : Nat)
deriving DecidableEq, Repr

/-- What a verdict makes of the bytes sent before it (R171). -/
def resultOf (ys : List Byte) (status : DecStatus) (pos : Nat) (char : Byte) : DecodeResult :=
  match status with
  | .ok => .ok ys
  | .invalidChar => .invalidChar pos char
  | .nonzeroPad => .nonzeroPad pos

/-- The result of the decode message whose event list this is: the bytes up to the first verdict, and
that verdict; `none` while no verdict has come, since a message has a result only when its `END` has
executed (spec/00_scope.md R6; log 13). -/
def decodeResultFrom (ys : List Byte) : List OutEvent → Option DecodeResult
  | [] => none
  | .encSym _ :: es => decodeResultFrom ys es
  | .encEnd :: es => decodeResultFrom ys es
  | .decByte b :: es => decodeResultFrom (ys ++ [b]) es
  | .decEnd status pos char :: _ => some (resultOf ys status pos char)

/-- `decode_hw` of an event list (R171). -/
def decodeResult (es : List OutEvent) : Option DecodeResult := decodeResultFrom [] es

/-- The event list an outcome leaves. -/
def eventsAfter : Host.Outcome State Fault Refusal → List OutEvent
  | .next t => t.events
  | .fault _ => []
  | .refused _ => []

/-- `encode_hw` (R170) on an instance with parameters `p`, from reset. -/
def encodeHw (p : Params) (bs : List Byte) : List Byte :=
  encSyms (eventsAfter (run (encodeProgram bs) (State.resetWith p)))

/-- `decode_hw` (R171) on an instance with parameters `p`, from reset. -/
def decodeHw (p : Params) (cs : List Byte) : Option DecodeResult :=
  decodeResult (eventsAfter (run (decodeProgram cs) (State.resetWith p)))

/-- The inner loop of `encode_ref` (R172), "while n >= 5"; the first argument bounds its turns and is
never used up when it is at least `n`. -/
def refDrain : Nat → Nat → Nat → List Byte × Nat
  | 0, _, n => ([], n)
  | fuel + 1, acc, n =>
    if n ≥ 5 then
      let r := refDrain fuel acc (n - 5)
      (encRom (BitVec.ofNat 5 ((acc >>> (n - 5)) &&& 0b11111)) :: r.1, r.2)
    else ([], n)

/-- The outer loop of `encode_ref` and its last symbol (R172). -/
def encodeRefFrom : List Byte → Nat → Nat → List Byte
  | [], acc, n => if n > 0 then [encRom (BitVec.ofNat 5 ((acc <<< (5 - n)) &&& 0b11111))] else []
  | b :: bs, acc, n =>
    let acc1 := (acc <<< 8) ||| b.toNat
    let r := refDrain (n + 8) acc1 (n + 8)
    r.1 ++ encodeRefFrom bs acc1 r.2

/-- `encode_ref`, the document's encode with an unbounded accumulator (R172). -/
def encodeRef (bs : List Byte) : List Byte := encodeRefFrom bs 0 0

/-- The loop of `decode_ref` (R173): `i` characters taken, accumulator `acc`, `n` buffered bits, bytes
`out`. -/
def decodeRefFrom (strict : Bool) : List Byte → Nat → Nat → Nat → List Byte → DecodeResult
  | [], i, acc, n, out =>
    if strict ∧ n > 0 ∧ acc &&& (2 ^ n - 1) ≠ 0 then .nonzeroPad i else .ok out
  | c :: cs, i, acc, n, out =>
    if validChar c then
      let acc1 := (acc <<< 5) ||| (charValue c).toNat
      let n1 := n + 5
      if n1 ≥ 8 then
        decodeRefFrom strict cs (i + 1) acc1 (n1 - 8)
          (out ++ [BitVec.ofNat 8 ((acc1 >>> (n1 - 8)) &&& 0xFF)])
      else decodeRefFrom strict cs (i + 1) acc1 n1 out
    else .invalidChar i c

/-- `decode_ref`, the document's decode with an unbounded accumulator (R173). -/
def decodeRef (strict : Bool) (cs : List Byte) : DecodeResult := decodeRefFrom strict cs 0 0 0 []

/-- A result with its position reduced modulo 2^`POS_W` (R174). -/
def DecodeResult.wrapPos (posW : Nat) : DecodeResult → DecodeResult
  | .ok ys => .ok ys
  | .invalidChar pos c => .invalidChar (pos % 2 ^ posW) c
  | .nonzeroPad pos => .nonzeroPad (pos % 2 ^ posW)

/-- The bits of a value, most significant first (spec/20_memory.md R50). -/
def bitsOf (n : Nat) (x : BitVec n) : List Bool := (List.range n).map (fun j => x.getLsbD (n - 1 - j))

/-- The value of a group of bits, its first bit most significant (R50). -/
def valueOf (n : Nat) (bits : List Bool) : BitVec n :=
  BitVec.ofNat n (bits.foldl (fun x b => 2 * x + b.toNat) 0)

/-- The first `m` consecutive groups of `k` bits (R50). -/
def groups (k : Nat) : Nat → List Bool → List (List Bool)
  | 0, _ => []
  | m + 1, bits => bits.take k :: groups k m (bits.drop k)

/-- `encode` as R50 states it: the bit string of the bytes, zero bits appended up to a multiple of 5, cut
into 5-bit groups, each looked up in `ENC_ROM`. -/
def packEncode (bs : List Byte) : List Byte :=
  let bits := bs.flatMap (bitsOf 8) ++ List.replicate ((5 - (8 * bs.length) % 5) % 5) false
  (groups 5 (bits.length / 5) bits).map (fun g => encRom (valueOf 5 g))

/-- `decode` of symbol values as R50 states it: their bit string cut into complete 8-bit groups, an
incomplete last group never output. -/
def packDecode (vs : List Sym) : List Byte :=
  let bits := vs.flatMap (bitsOf 5)
  (groups 8 (bits.length / 8) bits).map (valueOf 8)

end Sys2Proof.Machine
end

