-- ==== Sys2Proof/Machine/Asm.lean ====
section
/-! DEFINITION. The assembler syntax of spec/30_encoding.md R87 and the pseudo-instructions of R88, on
lists of characters: one command a line, `MNEMONIC` or `MNEMONIC operand`, an operand `0xNN` or `'c'`,
`.word 0xNNN` for any word, `; ` starting a comment. What R87 and R88 leave open of blanks, comments, digits
and quotes is log 14. -/

namespace Sys2Proof.Machine

/-- A blank between tokens. -/
def isBlank (c : Char) : Bool := c == ' ' || c == '\t'

/-- Leave out leading blanks. -/
def skipBlanks (l : List Char) : List Char := l.dropWhile isBlank

/-- The value of a hexadecimal digit. -/
def hexDigit (c : Char) : Option Nat :=
  if 0x30 ≤ c.toNat ∧ c.toNat ≤ 0x39 then some (c.toNat - 0x30)
  else if 0x41 ≤ c.toNat ∧ c.toNat ≤ 0x46 then some (c.toNat - 0x41 + 10)
  else if 0x61 ≤ c.toNat ∧ c.toNat ≤ 0x66 then some (c.toNat - 0x61 + 10)
  else none

/-- Read hexadecimal digits onto `acc`; the rest of the line. -/
def hexRun (acc : Nat) : List Char → Nat × List Char
  | [] => (acc, [])
  | c :: cs =>
    match hexDigit c with
    | some d => hexRun (16 * acc + d) cs
    | none => (acc, c :: cs)

/-- Read `0x` and one digit or more, below the bound; the rest of the line. -/
def readHex (bound : Nat) (l : List Char) : Option (Nat × List Char) :=
  match l with
  | '0' :: 'x' :: c :: cs =>
    match hexDigit c with
    | some d => let r := hexRun d cs; if r.1 < bound then some r else none
    | none => none
  | _ => none

/-- The code of an ASCII character (R87, D8). -/
def asciiCode (c : Char) : Option Byte := if c.toNat < 0x80 then some (BitVec.ofNat 8 c.toNat) else none

/-- Read an operand: `0xNN` or `'c'` (R87). -/
def readOperand (l : List Char) : Option (Byte × List Char) :=
  match l with
  | '\'' :: c :: '\'' :: rest => (asciiCode c).map (fun b => (b, rest))
  | _ => (readHex 0x100 l).map (fun r => (BitVec.ofNat 8 r.1, r.2))

/-- Nothing is left on the line but blanks and a comment (R87). -/
def lineEnds (l : List Char) : Bool :=
  match skipBlanks l with
  | [] => true
  | [';'] => true
  | ';' :: c :: _ => isBlank c
  | _ => false

/-- Read the rest of a comma-separated list of operands (R88, `ENCODE`); the first argument bounds its
length by the line's. -/
def readMore : Nat → List Char → Option (List Byte)
  | 0, _ => none
  | fuel + 1, l =>
    if lineEnds l then some []
    else
      match skipBlanks l with
      | ',' :: rest =>
        match readOperand (skipBlanks rest) with
        | some r => (readMore fuel r.2).map (fun bs => r.1 :: bs)
        | none => none
      | _ => none

/-- Read the operands of `ENCODE`, N >= 0 bytes (R88). -/
def readBytes (l : List Char) : Option (List Byte) :=
  if lineEnds l then some []
  else
    match readOperand (skipBlanks l) with
    | some r => (readMore (r.2.length + 1) r.2).map (fun bs => r.1 :: bs)
    | none => none

/-- The double quote. -/
def quote : Char := Char.ofNat 0x22

/-- Read characters up to the closing quote (R88, `DECODE`). -/
def readText : List Char → Option (List Byte × List Char)
  | [] => none
  | c :: cs =>
    if c = quote then some ([], cs)
    else
      match asciiCode c, readText cs with
      | some b, some r => some (b :: r.1, r.2)
      | _, _ => none

/-- A command without an operand. -/
def noOperand (i : Instr) (rest : List Char) : Option (List Instr) :=
  if lineEnds rest then some [i] else none

/-- A command with one operand. -/
def oneOperand (f : Byte → Instr) (rest : List Char) : Option (List Instr) :=
  match readOperand rest with
  | some r => if lineEnds r.2 then some [f r.1] else none
  | none => none

/-- The directive `.word` (R87). -/
def wordDirective (rest : List Char) : Option (List Instr) :=
  match readHex 0x800 rest with
  | some r => if lineEnds r.2 then some [decode (BitVec.ofNat 11 r.1)] else none
  | none => none

/-- The pseudo-instruction `DECODE` with its quoted text (R88). -/
def decodeLine (rest : List Char) : Option (List Instr) :=
  match rest with
  | [] => none
  | c :: cs =>
    if c = quote then
      match readText cs with
      | some r => if lineEnds r.2 then some (decodeProgram r.1) else none
      | none => none
    else none

/-- A character of a mnemonic: the mnemonic ends at a blank or at the `;` of a comment, so no blank is
needed before a comment, after a bare mnemonic as after an operand (log 14, DESIGN CHOICE: R87 leaves it
open). -/
def inMnemonic (c : Char) : Bool := !isBlank c && c != ';'

/-- The commands of one line (R87, R88); `none` for a line that is none. What the two rules leave open
here is the model's choice (log 14, DESIGN CHOICE). -/
def assembleLine (line : List Char) : Option (List Instr) :=
  let l := skipBlanks line
  let mnemonic := l.takeWhile inMnemonic
  let rest := skipBlanks (l.drop mnemonic.length)
  if lineEnds l then some []
  else if mnemonic = "NOP".toList then noOperand (.nop 0x00) rest
  else if mnemonic = "ENC_PUSH".toList then oneOperand Instr.encPush rest
  else if mnemonic = "ENC_END".toList then noOperand (.encEnd 0x00) rest
  else if mnemonic = "ENC_CLR".toList then noOperand (.encClr 0x00) rest
  else if mnemonic = "DEC_PUSH".toList then oneOperand Instr.decPush rest
  else if mnemonic = "DEC_END".toList then noOperand (.decEnd 0x00) rest
  else if mnemonic = "DEC_CLR".toList then noOperand (.decClr 0x00) rest
  else if mnemonic = ".word".toList then wordDirective rest
  else if mnemonic = "ENCODE".toList then (readBytes rest).map encodeProgram
  else if mnemonic = "DECODE".toList then decodeLine rest
  else if mnemonic = "IDLE".toList then noOperand (.nop 0x00) rest
  else none

/-- The commands of a program, one line each (R87). -/
def assemble : List (List Char) → Option (List Instr)
  | [] => some []
  | line :: lines =>
    match assembleLine line, assemble lines with
    | some is, some js => some (is ++ js)
    | _, _ => none

end Sys2Proof.Machine
end

