-- ==== Sys2Proof/Safety.lean ====
section
/-! DEFINITION. The terms in which claims about the core are made: the state invariant of
spec/10_state.md R27, the ranges of R20, the idle states, and the registers as one value. Every run is
safe in the sense that no command stops the machine (spec/42_control.md R165); what claims need is that
the state is one that a reset and steps can leave. -/

namespace Sys2Proof.Machine

/-- The nine registers of R20 as one value. -/
structure Regs where
  encAcc : BitVec 4
  encCnt : BitVec 3
  decAcc : BitVec 7
  decCnt : BitVec 3
  decPos : Nat
  decErr : Bool
  decErrPos : Nat
  decErrChar : Byte
  illCmd : Bool
deriving DecidableEq, Repr

/-- The registers of a state (R20). -/
def State.regs (s : State) : Regs :=
  { encAcc := s.encAcc, encCnt := s.encCnt, decAcc := s.decAcc, decCnt := s.decCnt, decPos := s.decPos,
    decErr := s.decErr, decErrPos := s.decErrPos, decErrChar := s.decErrChar, illCmd := s.illCmd }

/-- The nine registers all 0 (R35). -/
def Regs.zero : Regs :=
  { encAcc := 0, encCnt := 0, decAcc := 0, decCnt := 0, decPos := 0,
    decErr := false, decErrPos := 0, decErrChar := 0x00, illCmd := false }

/-- The registers of the encoder half are equal (R20). -/
abbrev State.SameEnc (s t : State) : Prop := t.encAcc = s.encAcc ∧ t.encCnt = s.encCnt

/-- The registers of the decoder half are equal (R20). -/
abbrev State.SameDec (s t : State) : Prop :=
  t.decAcc = s.decAcc ∧ t.decCnt = s.decCnt ∧ t.decPos = s.decPos ∧
  t.decErr = s.decErr ∧ t.decErrPos = s.decErrPos ∧ t.decErrChar = s.decErrChar

/-- The fields no command writes are equal: the parameters (R34), what the host drives next, and the
output registers and ports, which the clock edge writes (R36). -/
abbrev State.SameEnvironment (s t : State) : Prop :=
  t.params = s.params ∧ t.inputs = s.inputs ∧ t.outReg = s.outReg ∧ t.ports = s.ports

/-- The state invariant of R27. -/
abbrev State.RegInv (s : State) : Prop :=
  s.encCnt.toNat ≤ 4 ∧
  s.encAcc.toNat < 2 ^ s.encCnt.toNat ∧
  s.decAcc.toNat < 2 ^ s.decCnt.toNat ∧
  (s.decErr = false → s.decErrPos = 0 ∧ s.decErrChar = 0x00)

/-- The ranges of the two `POS_W`-bit registers (R20). -/
abbrev State.PosInv (s : State) : Prop :=
  s.decPos < 2 ^ s.params.posW ∧ s.decErrPos < 2 ^ s.params.posW

/-- The output registers hold the event list of the last step when `PIPE` = 1, and do not exist when
`PIPE` = 0 (R36). -/
abbrev State.OutInv (s : State) : Prop :=
  s.outReg = if s.params.pipe then portsOf s.events else OutPorts.idle

/-- The invariant of the clocked machine. -/
abbrev State.Inv (s : State) : Prop := s.RegInv ∧ s.PosInv ∧ s.OutInv

/-- The encoder half is idle (R170). -/
abbrev State.EncIdle (s : State) : Prop := s.encAcc = 0 ∧ s.encCnt = 0

/-- The decoder half is idle: all six decoder registers 0 (R171). -/
abbrev State.DecIdle (s : State) : Prop :=
  s.decAcc = 0 ∧ s.decCnt = 0 ∧ s.decPos = 0 ∧ s.decErr = false ∧ s.decErrPos = 0 ∧ s.decErrChar = 0x00

/-- The lists of output events a step may produce; the code of an `EncSym` is always an entry of
`ENC_ROM` (R90). -/
inductive StepEvents : List OutEvent → Prop where
  | none : StepEvents []
  | sym (i : Sym) : StepEvents [.encSym (encRom i)]
  | twoSyms (i j : Sym) : StepEvents [.encSym (encRom i), .encSym (encRom j)]
  | ended : StepEvents [.encEnd]
  | symEnded (i : Sym) : StepEvents [.encSym (encRom i), .encEnd]
  | byte (b : Byte) : StepEvents [.decByte b]
  | verdict (st : DecStatus) (pos : Nat) (c : Byte) : StepEvents [.decEnd st pos c]

end Sys2Proof.Machine
end

