-- ==== Sys2Proof/Certificates/Slice0/Obligations.lean ====
section
/-! DEFINITION. The statements about the model, from the numbered rules of spec/. A statement "for all
states" is for every instance, since a state carries its parameters (log 1). -/

open Sys2Proof Sys2Proof.Machine

/-! ## Encoding -/

/-- R82 and R83 joined: decoding an encoded command gives it back, and encoding a decoded word gives it
back, the ignored `data` bits included (log 10). -/
def Obligations.DecodeEncodeAgreeBothWays : Prop :=
  (∀ i : Instr, decode (encode i) = i) ∧ (∀ w : CmdWord, encode (decode w) = w)

/-- R82: a word selects exactly one row by match and mask, and decodes to that row's command. -/
def Obligations.EveryWordSelectsExactlyOneRow : Prop :=
  ∀ w : CmdWord,
    (∃! m : CmdWord, m ∈ ([0x000, 0x100, 0x200, 0x300, 0x400, 0x500, 0x600, 0x700] : List CmdWord) ∧
      w &&& 0x700 = m) ∧
    (w &&& 0x700 = 0x000 → decode w = .nop (w.extractLsb' 0 8)) ∧
    (w &&& 0x700 = 0x100 → decode w = .encPush (w.extractLsb' 0 8)) ∧
    (w &&& 0x700 = 0x200 → decode w = .encEnd (w.extractLsb' 0 8)) ∧
    (w &&& 0x700 = 0x300 → decode w = .encClr (w.extractLsb' 0 8)) ∧
    (w &&& 0x700 = 0x400 → decode w = .illegal100 (w.extractLsb' 0 8)) ∧
    (w &&& 0x700 = 0x500 → decode w = .decPush (w.extractLsb' 0 8)) ∧
    (w &&& 0x700 = 0x600 → decode w = .decEnd (w.extractLsb' 0 8)) ∧
    (w &&& 0x700 = 0x700 → decode w = .decClr (w.extractLsb' 0 8))

/-- R87: the example words, and words written out bit by bit from R80 and R82 for each family. -/
def Obligations.SampleWordsDecode : Prop :=
  decode 0x1FF = .encPush 0xFF ∧ decode 0x55A = .decPush 0x5A ∧
  decode 0x200 = .encEnd 0x00 ∧ decode 0x600 = .decEnd 0x00 ∧
  decode 0b000_10101011 = .nop 0xAB ∧ decode 0b100_00000000 = .illegal100 0x00 ∧
  decodeTableWord 16 0x1FF = some (.encPush 0xFF)

/-- R87: the examples of the assembler syntax give the words the rule gives. -/
def Obligations.AssemblerExamplesGiveTheirWords : Prop :=
  (assembleLine "ENC_PUSH 0xFF".toList).map (List.map encode) = some [0x1FF] ∧
  (assembleLine "DEC_PUSH 'Z'".toList).map (List.map encode) = some [0x55A] ∧
  (assembleLine "ENC_END".toList).map (List.map encode) = some [0x200] ∧
  (assembleLine "DEC_END ; the end of a text".toList).map (List.map encode) = some [0x600] ∧
  (assembleLine ".word 0x4A5".toList).map (List.map encode) = some [0x4A5] ∧
  assembleLine "ENCODE 0x01, 0x02".toList = some [.encPush 0x01, .encPush 0x02, .encEnd 0x00] ∧
  assembleLine "ENCODE".toList = some [.encEnd 0x00]

/-- R85: where `data` is ignored, two words with the same `op` have the same effect, in every state. -/
def Obligations.IgnoredDataBitsHaveNoEffect : Prop :=
  ∀ (w w' : CmdWord) (s : State), w.extractLsb' 8 3 = w'.extractLsb' 8 3 →
    w.extractLsb' 8 3 ≠ 0b001 → w.extractLsb' 8 3 ≠ 0b101 →
    exec (decode w) s = exec (decode w') s

/-! ## The clock cycle, reset and the ports -/

/-- R230: when the host presents a command, the step is `exec` of that command from an empty event list,
and the clock edge then writes the output registers and shows the ports (log 3, 5, 6, 7: the model's
conventions). -/
def Obligations.StepRunsThePresentedCommand : Prop :=
  ∀ (s t : State) (i : Instr) (c : CycleIn) (rest : List CycleIn),
    i.wellFormed = true → s.inputs = c :: rest → c.rst = false → c.cmdValid = true → decode c.cmd = i →
    exec i { s with inputs := rest, events := [] } = .next t →
    step s = .next { t with
      outReg := if s.params.pipe then portsOf t.events else OutPorts.idle
      ports := if s.params.pipe then s.outReg else portsOf t.events }

/-- The model's convention of log 4: after `withFetchWord` the very next step runs exactly the command
that `decodeTableWord` reads. -/
def Obligations.StepRunsTheFetchedWord : Prop :=
  ∀ (s t : State) (i : Instr) (nbits w : Nat), decodeTableWord nbits w = some i →
    exec i { s with events := [] } = .next t →
    step (s.withFetchWord nbits w) = .next { t with
      outReg := if s.params.pipe then portsOf t.events else OutPorts.idle
      ports := if s.params.pipe then s.outReg else portsOf t.events }

/-- R164: an edge with `rst` = 0 and `cmd_valid` = 0 changes no register, has an empty event list, and
has the effect of a step executing `NOP`, whatever `cmd` is. -/
def Obligations.IdleCycleActsAsNop : Prop :=
  ∀ (w : CmdWord) (d : Byte) (s : State), ∃ t,
    cycle { rst := false, cmdValid := false, cmd := w } s = .next t ∧
    t.regs = s.regs ∧ t.events = [] ∧ t.params = s.params ∧ t.inputs = s.inputs ∧
    cycle (present (encode (.nop d))) s = .next t

/-- Log 3, the model's choice: with nothing left in the host's schedule the step is an idle cycle. -/
def Obligations.ExhaustedScheduleIsIdle : Prop :=
  ∀ s : State, s.inputs = [] → ∃ t, step s = .next t ∧ t.regs = s.regs ∧ t.events = [] ∧
    t.inputs = [] ∧ t.params = s.params

/-- R165: every command sequence runs from every state, and every step of the machine answers a next
state. -/
def Obligations.NothingEverStopsTheCore : Prop :=
  (∀ (is : List Instr) (s : State), ∃ t, run is s = .next t) ∧ (∀ s : State, ∃ t, step s = .next t)

/-- R231: an edge with `rst` = 1 is a complete reset from any state, and holding `rst` repeats it. -/
def Obligations.ResetEdgeClearsEveryRegister : Prop :=
  ∀ (c c' : CycleIn) (s : State), c.rst = true → c'.rst = true → ∃ t u,
    cycle c s = .next t ∧ t.regs = Regs.zero ∧ t.outReg = OutPorts.idle ∧ t.events = [] ∧
    cycle c' t = .next u ∧ u.regs = Regs.zero ∧ u.outReg = OutPorts.idle ∧ u.events = []

/-- R232 and R246: with `rst` = 1 the command port is ignored; the ports of that cycle show "no event"
when `PIPE` = 0 and the step of the cycle before when `PIPE` = 1. -/
def Obligations.ResetBeatsTheCommandPort : Prop :=
  ∀ (c c' : CycleIn) (s : State), c.rst = true → c'.rst = true →
    cycle c s = cycle c' s ∧
    ∃ t, cycle c s = .next t ∧
      (s.params.pipe = false → t.ports = OutPorts.idle) ∧ (s.params.pipe = true → t.ports = s.outReg)

/-- R241: the event list of the step whose command is presented in a cycle is on the ports in that cycle
when `PIPE` = 0 and in the next one, whatever happens then, when `PIPE` = 1; the status wires show the
state after the step in the next cycle in both cases. -/
def Obligations.OutputLatencyIsPipeCycles : Prop :=
  ∀ (w : CmdWord) (s : State), ∃ t u,
    exec (decode w) { s with events := [] } = .next t ∧ cycle (present w) s = .next u ∧
    u.statusWires = t.statusWires ∧
    (s.params.pipe = false → u.ports = portsOf t.events) ∧
    (s.params.pipe = true → ∀ c : CycleIn, ∃ v, cycle c u = .next v ∧ v.ports = portsOf t.events)

/-- R251 with R241: fed the same inputs, resets among them, an instance with `PIPE` = 1 shows the outputs
of one with `PIPE` = 0, each one cycle later. -/
def Obligations.PipelineDelaysEveryOutputByOneCycle : Prop :=
  ∀ (cs : List CycleIn) (s : State), s.params.pipe = false →
    (waveform cs s).length = cs.length ∧
    waveform cs { s with params := { s.params with pipe := true }, outReg := OutPorts.idle } =
      (OutPorts.idle :: waveform cs s).take cs.length

/-- R67 and R82 through the clock: the machine fed the encoded words of a command sequence, one a cycle,
reaches the registers that executing the commands one after another reaches, and its ports carry the
event lists of those steps in order. -/
def Obligations.EncodedProgramRunsAsItsCommands : Prop :=
  ∀ (is : List Instr) (s : State) (rest : List CycleIn),
    s.inputs = is.map (fun i => present (encode i)) ++ rest →
    ∃ t u ess, Host.Core.run Sys2Proof.core is.length s = .next t ∧ run is s = .next u ∧
      t.regs = u.regs ∧ t.params = s.params ∧ t.inputs = rest ∧
      u.events = s.events ++ List.flatten ess ∧
      (s.params.pipe = false →
        waveform (is.map (fun i => present (encode i))) s = ess.map portsOf)

/-- R93, R94, R95, R98: the port values for each event list of R90, every unused signal 0. -/
def Obligations.PortsCarryEachEventList : Prop :=
  ∀ (a b : Byte) (pos : Nat) (ch : Byte),
    portsOf [] = OutPorts.idle ∧
    portsOf [.encSym a] = { OutPorts.idle with encValid := true, encN := 1, encSym0 := a } ∧
    portsOf [.encSym a, .encSym b] =
      { OutPorts.idle with encValid := true, encN := 2, encSym0 := a, encSym1 := b } ∧
    portsOf [.encEnd] = { OutPorts.idle with encValid := true, encLast := true } ∧
    portsOf [.encSym a, .encEnd] =
      { OutPorts.idle with encValid := true, encN := 1, encSym0 := a, encLast := true } ∧
    portsOf [.decByte b] = { OutPorts.idle with decValid := true, decByte := b } ∧
    portsOf [.decEnd .ok pos ch] =
      { OutPorts.idle with decEndValid := true, decEndStatus := 0, decEndPos := pos, decEndChar := ch } ∧
    portsOf [.decEnd .invalidChar pos ch] =
      { OutPorts.idle with decEndValid := true, decEndStatus := 1, decEndPos := pos, decEndChar := ch } ∧
    portsOf [.decEnd .nonzeroPad pos ch] =
      { OutPorts.idle with decEndValid := true, decEndStatus := 2, decEndPos := pos, decEndChar := ch }

/-- R96 with R201: in the cycle after an invalid character the status wires show the error, whatever
`PIPE` is. -/
def Obligations.StatusWiresShowTheErrorNextCycle : Prop :=
  ∀ (c : Byte) (s : State), s.decErr = false → validChar c = false →
    ∃ t, cycle (present (encode (.decPush c))) s = .next t ∧
      t.statusWires =
        { decErr := true, decErrPos := s.decPos, decErrChar := c, illCmd := s.illCmd }

/-- R90 and R91: a command appends one of the seven event lists, all of its own half. -/
def Obligations.CommandEmitsOneOfTheSevenEventLists : Prop :=
  ∀ (i : Instr) (s : State), ∃ t es, exec i s = .next t ∧ t.events = s.events ++ es ∧ StepEvents es ∧
    ∀ e ∈ es, e.half = i.half

/-! ## Reset values and invariants -/

/-- R35 and the reset value of R36. -/
def Obligations.ResetLeavesEveryRegisterZero : Prop :=
  ∀ p : Params, (State.resetWith p).regs = Regs.zero ∧ (State.resetWith p).outReg = OutPorts.idle ∧
    State.reset.regs = Regs.zero ∧ State.reset.outReg = OutPorts.idle

/-- The invariant of the clocked machine holds at reset, for every instance. -/
def Obligations.ResetMeetsTheInvariant : Prop :=
  (∀ p : Params, (State.resetWith p).Inv) ∧ State.reset.Inv

/-- R27: the state invariant holds after reset, and every step of the machine and every command keeps
it. -/
def Obligations.EveryStepKeepsTheStateInvariant : Prop :=
  (∀ p : Params, (State.resetWith p).RegInv) ∧
  (∀ s t : State, s.RegInv → step s = .next t → t.RegInv) ∧
  (∀ (i : Instr) (s t : State), s.RegInv → exec i s = .next t → t.RegInv)

/-- R20 and R36: every step keeps the positions within `POS_W` bits, and after every step, from any
state, the output registers hold exactly the event list of that step (or nothing when `PIPE` = 0). -/
def Obligations.EveryStepKeepsRangesAndOutputRegisters : Prop :=
  ∀ s t : State, step s = .next t → (s.PosInv → t.PosInv) ∧ t.OutInv

/-- R34: no step changes a parameter of the instance. -/
def Obligations.NoStepChangesTheParameters : Prop :=
  ∀ s t : State, step s = .next t → t.params = s.params

/-- R32: what sets and clears each flag, cycle by cycle. -/
def Obligations.FlagsAreSetAndClearedAsListed : Prop :=
  ∀ (c : CycleIn) (s : State), ∃ t, cycle c s = .next t ∧
    (t.illCmd = true ↔
      c.rst = false ∧ (s.illCmd = true ∨ (c.cmdValid = true ∧ c.cmd.extractLsb' 8 3 = 0b100))) ∧
    (t.decErr = true ↔
      c.rst = false ∧
      ((s.decErr = true ∧
          ¬ (c.cmdValid = true ∧ (c.cmd.extractLsb' 8 3 = 0b110 ∨ c.cmd.extractLsb' 8 3 = 0b111))) ∨
        (s.decErr = false ∧ c.cmdValid = true ∧ c.cmd.extractLsb' 8 3 = 0b101 ∧
          validChar (c.cmd.extractLsb' 0 8) = false)))

/-! ## Frames and the two halves -/

/-- R25, the encoder rows: `ENC_PUSH`, `ENC_END`, `ENC_CLR` write nothing but `enc_acc`, `enc_cnt` and
their own events. -/
def Obligations.EncoderCommandsLeaveTheRest : Prop :=
  ∀ (i : Instr) (s : State), i.half = .encoder → ∃ t es, exec i s = .next t ∧
    s.SameDec t ∧ t.illCmd = s.illCmd ∧ s.SameEnvironment t ∧ t.events = s.events ++ es

/-- R25, the decoder rows: `DEC_PUSH`, `DEC_END`, `DEC_CLR` write nothing of the encoder nor `ill_cmd`;
a valid character leaves the error registers, an invalid one the data registers, and one ignored
leaves everything. -/
def Obligations.DecoderCommandsLeaveTheRest : Prop :=
  (∀ (i : Instr) (s : State), i.half = .decoder → ∃ t es, exec i s = .next t ∧
    s.SameEnc t ∧ t.illCmd = s.illCmd ∧ s.SameEnvironment t ∧ t.events = s.events ++ es) ∧
  (∀ (c : Byte) (s : State), ∃ t, exec (.decPush c) s = .next t ∧
    (validChar c = true →
      t.decErr = s.decErr ∧ t.decErrPos = s.decErrPos ∧ t.decErrChar = s.decErrChar) ∧
    (validChar c = false →
      t.decAcc = s.decAcc ∧ t.decCnt = s.decCnt ∧ t.decPos = s.decPos ∧ t.events = s.events) ∧
    (s.decErr = true → t = s))

/-- R25, "No command of one half reads or writes a register of the other half": what a command of one half
leaves in that half and emits is fixed by that half's registers (and, for the decoder, the
parameters). -/
def Obligations.HalvesCannotObserveEachOther : Prop :=
  (∀ (i : Instr) (s s' : State), i.half = .encoder → s.SameEnc s' →
    ∃ t t' es, exec i s = .next t ∧ exec i s' = .next t' ∧ t.SameEnc t' ∧
      t.events = s.events ++ es ∧ t'.events = s'.events ++ es) ∧
  (∀ (i : Instr) (s s' : State), i.half = .decoder → s.SameDec s' → s'.params = s.params →
    ∃ t t' es, exec i s = .next t ∧ exec i s' = .next t' ∧ t.SameDec t' ∧
      t.events = s.events ++ es ∧ t'.events = s'.events ++ es)

/-- R68: an encoder command and a decoder command in either order give the same registers and the same
events of each kind, each command's events being what it emits alone. -/
def Obligations.TheTwoHalvesCommute : Prop :=
  ∀ (e d : Instr) (s : State), e.half = .encoder → d.half = .decoder →
    ∃ t u te td, run [e, d] s = .next t ∧ run [d, e] s = .next u ∧
      exec e s = .next te ∧ exec d s = .next td ∧
      { t with events := [] } = { u with events := [] } ∧
      eventsOfHalf .encoder t.events = eventsOfHalf .encoder te.events ∧
      eventsOfHalf .encoder u.events = eventsOfHalf .encoder te.events ∧
      eventsOfHalf .decoder t.events = eventsOfHalf .decoder td.events ∧
      eventsOfHalf .decoder u.events = eventsOfHalf .decoder td.events

/-! ## Control commands -/

/-- R160: `NOP` does nothing, and any number of `NOP`s anywhere in a command sequence leaves the final
state and every event as they would be without them. -/
def Obligations.NopsDoNotMatter : Prop :=
  (∀ (d : Byte) (s : State), exec (.nop d) s = .next s) ∧
  (∀ (is : List Instr) (s : State),
    run is s = run (is.filter (fun i => decide (∀ d, i ≠ .nop d))) s)

/-- R161 and R203: the reserved opcode sets `ill_cmd` and does nothing else, in every state. -/
def Obligations.IllegalCommandSetsOnlyTheFlag : Prop :=
  ∀ (d : Byte) (s : State), exec (.illegal100 d) s = .next { s with illCmd := true }

/-! ## Encoder commands -/

/-- R110 in exact arithmetic: `t`, `n` and the slices as natural numbers, every other field kept. -/
def Obligations.EncPushFollowsThePseudocode : Prop :=
  ∀ (b : Byte) (s : State), s.RegInv →
    let t := s.encAcc.toNat * 2 ^ 8 + b.toNat
    let n := s.encCnt.toNat + 8
    let sym := fun k => OutEvent.encSym (encRom (BitVec.ofNat 5 (t / 2 ^ k % 32)))
    (n - 5 < 5 → exec (.encPush b) s = .next { s with
      encCnt := BitVec.ofNat 3 (n - 5)
      encAcc := BitVec.ofNat 4 (t % 2 ^ (n - 5))
      events := s.events ++ [sym (n - 5)] }) ∧
    (5 ≤ n - 5 → exec (.encPush b) s = .next { s with
      encCnt := BitVec.ofNat 3 (n - 10)
      encAcc := BitVec.ofNat 4 (t % 2 ^ (n - 10))
      events := s.events ++ [sym (n - 5), sym (n - 10)] })

/-- R113: the five rows of the table, `t` = `{enc_acc[3:0], b[7:0]}`, every other field kept. -/
def Obligations.EncPushCaseByCase : Prop :=
  ∀ (b : Byte) (s : State), s.RegInv →
    let t : BitVec 12 := s.encAcc ++ b
    let sym := fun (v : Sym) => OutEvent.encSym (encRom v)
    (s.encCnt = 0 → exec (.encPush b) s = .next { s with
      encCnt := 3, encAcc := (t.extractLsb' 0 3).setWidth 4
      events := s.events ++ [sym (t.extractLsb' 3 5)] }) ∧
    (s.encCnt = 1 → exec (.encPush b) s = .next { s with
      encCnt := 4, encAcc := t.extractLsb' 0 4
      events := s.events ++ [sym (t.extractLsb' 4 5)] }) ∧
    (s.encCnt = 2 → exec (.encPush b) s = .next { s with
      encCnt := 0, encAcc := 0
      events := s.events ++ [sym (t.extractLsb' 5 5), sym (t.extractLsb' 0 5)] }) ∧
    (s.encCnt = 3 → exec (.encPush b) s = .next { s with
      encCnt := 1, encAcc := (t.extractLsb' 0 1).setWidth 4
      events := s.events ++ [sym (t.extractLsb' 6 5), sym (t.extractLsb' 1 5)] }) ∧
    (s.encCnt = 4 → exec (.encPush b) s = .next { s with
      encCnt := 2, encAcc := (t.extractLsb' 0 2).setWidth 4
      events := s.events ++ [sym (t.extractLsb' 7 5), sym (t.extractLsb' 2 5)] })

/-- R111 in exact arithmetic: the buffered bits on top, zeros below, then the end marker; the encoder is
idle and every other field kept. -/
def Obligations.EncEndFollowsThePseudocode : Prop :=
  ∀ (d : Byte) (s : State), s.RegInv →
    (s.encCnt.toNat = 0 → exec (.encEnd d) s = .next { s with
      encAcc := 0, encCnt := 0, events := s.events ++ [.encEnd] }) ∧
    (0 < s.encCnt.toNat → exec (.encEnd d) s = .next { s with
      encAcc := 0, encCnt := 0
      events := s.events ++
        [.encSym (encRom (BitVec.ofNat 5 (s.encAcc.toNat * 2 ^ (5 - s.encCnt.toNat)))), .encEnd] })

/-- R112: `ENC_CLR` returns the encoder to idle with no event, every other field kept. -/
def Obligations.EncClrReturnsTheEncoderToIdle : Prop :=
  ∀ (d : Byte) (s : State), exec (.encClr d) s = .next { s with encAcc := 0, encCnt := 0 }

/-- R114: the count and the number of symbols after `k` bytes from idle. -/
def Obligations.EncoderCountRunsWithPeriodFive : Prop :=
  ∀ (bs : List Byte) (s : State), s.EncIdle → ∃ t, run (bs.map Instr.encPush) s = .next t ∧
    t.encCnt.toNat = (8 * bs.length) % 5 ∧ t.encCnt.toNat = (3 * bs.length) % 5 ∧
    (encSyms t.events).length = (encSyms s.events).length + 8 * bs.length / 5

/-! ## Decoder commands -/

/-- R130 in exact arithmetic (with R201 for the invalid character), every other field kept. -/
def Obligations.DecPushFollowsThePseudocode : Prop :=
  ∀ (c : Byte) (s : State), s.RegInv → s.decErr = false →
    let t := s.decAcc.toNat * 2 ^ 5 + (charValue c).toNat
    let n := s.decCnt.toNat + 5
    (validChar c = false → exec (.decPush c) s = .next { s with
      decErr := true, decErrPos := s.decPos, decErrChar := c }) ∧
    (validChar c = true → n < 8 → exec (.decPush c) s = .next { s with
      decCnt := BitVec.ofNat 3 n
      decAcc := BitVec.ofNat 7 (t % 2 ^ n)
      decPos := (s.decPos + 1) % 2 ^ s.params.posW }) ∧
    (validChar c = true → 8 ≤ n → exec (.decPush c) s = .next { s with
      decCnt := BitVec.ofNat 3 (n - 8)
      decAcc := BitVec.ofNat 7 (t % 2 ^ (n - 8))
      decPos := (s.decPos + 1) % 2 ^ s.params.posW
      events := s.events ++ [.decByte (BitVec.ofNat 8 (t / 2 ^ (n - 8) % 256))] })

/-- R134: the eight rows of the table for a valid character, `t` = `{dec_acc[6:0], v[4:0]}`, every other
field kept. -/
def Obligations.DecPushCaseByCase : Prop :=
  ∀ (c : Byte) (s : State), s.RegInv → s.decErr = false → validChar c = true →
    let t : BitVec 12 := s.decAcc ++ charValue c
    let pos := (s.decPos + 1) % 2 ^ s.params.posW
    (s.decCnt = 0 → exec (.decPush c) s = .next { s with
      decCnt := 5, decAcc := (t.extractLsb' 0 5).setWidth 7, decPos := pos }) ∧
    (s.decCnt = 1 → exec (.decPush c) s = .next { s with
      decCnt := 6, decAcc := (t.extractLsb' 0 6).setWidth 7, decPos := pos }) ∧
    (s.decCnt = 2 → exec (.decPush c) s = .next { s with
      decCnt := 7, decAcc := t.extractLsb' 0 7, decPos := pos }) ∧
    (s.decCnt = 3 → exec (.decPush c) s = .next { s with
      decCnt := 0, decAcc := 0, decPos := pos
      events := s.events ++ [.decByte (t.extractLsb' 0 8)] }) ∧
    (s.decCnt = 4 → exec (.decPush c) s = .next { s with
      decCnt := 1, decAcc := (t.extractLsb' 0 1).setWidth 7, decPos := pos
      events := s.events ++ [.decByte (t.extractLsb' 1 8)] }) ∧
    (s.decCnt = 5 → exec (.decPush c) s = .next { s with
      decCnt := 2, decAcc := (t.extractLsb' 0 2).setWidth 7, decPos := pos
      events := s.events ++ [.decByte (t.extractLsb' 2 8)] }) ∧
    (s.decCnt = 6 → exec (.decPush c) s = .next { s with
      decCnt := 3, decAcc := (t.extractLsb' 0 3).setWidth 7, decPos := pos
      events := s.events ++ [.decByte (t.extractLsb' 3 8)] }) ∧
    (s.decCnt = 7 → exec (.decPush c) s = .next { s with
      decCnt := 4, decAcc := (t.extractLsb' 0 4).setWidth 7, decPos := pos
      events := s.events ++ [.decByte (t.extractLsb' 4 8)] })

/-- R131: while `dec_err` = 1 a character, valid or not, changes nothing and emits nothing. -/
def Obligations.DecPushIsIgnoredAfterAnError : Prop :=
  ∀ (c : Byte) (s : State), s.decErr = true → exec (.decPush c) s = .next s

/-- R132 with R97 and R202: the verdict by its three branches, the decoder idle, every other field
kept. -/
def Obligations.DecEndReportsTheVerdict : Prop :=
  ∀ (d : Byte) (s : State),
    let idle := { s with
      decAcc := 0, decCnt := 0, decPos := 0, decErr := false, decErrPos := 0, decErrChar := 0x00 }
    (s.decErr = true → exec (.decEnd d) s = .next { idle with
      events := s.events ++ [.decEnd .invalidChar s.decErrPos s.decErrChar] }) ∧
    (s.decErr = false → s.params.strictPad = true → 0 < s.decCnt.toNat → s.decAcc ≠ 0 →
      exec (.decEnd d) s = .next { idle with
        events := s.events ++ [.decEnd .nonzeroPad s.decPos 0x00] }) ∧
    (s.decErr = false → (s.params.strictPad = false ∨ s.decCnt = 0 ∨ s.decAcc = 0) →
      exec (.decEnd d) s = .next { idle with events := s.events ++ [.decEnd .ok s.decPos 0x00] })

/-- R133: `DEC_CLR` returns the decoder to idle with no event, every other field kept. -/
def Obligations.DecClrReturnsTheDecoderToIdle : Prop :=
  ∀ (d : Byte) (s : State), exec (.decClr d) s = .next { s with
    decAcc := 0, decCnt := 0, decPos := 0, decErr := false, decErrPos := 0, decErrChar := 0x00 }

/-- R135: the count and the number of bytes after `k` valid characters from idle. -/
def Obligations.DecoderCountRunsWithPeriodEight : Prop :=
  ∀ (cs : List Byte) (s : State), s.DecIdle → (∀ c ∈ cs, validChar c = true) →
    ∃ t, run (cs.map Instr.decPush) s = .next t ∧
      t.decCnt.toNat = (5 * cs.length) % 8 ∧
      (decBytes t.events).length = (decBytes s.events).length + 5 * cs.length / 8

/-- R210 and R211: the error condition lasts, unchanged and with no decoder event, through every command
sequence without `DEC_END` and `DEC_CLR`; either of those two then leaves the decoder idle. -/
def Obligations.ErrorConditionLastsUntilEndOrClr : Prop :=
  ∀ (is : List Instr) (s : State) (d : Byte), s.decErr = true →
    (∀ i ∈ is, (∀ x, i ≠ .decEnd x) ∧ (∀ x, i ≠ .decClr x)) →
    ∃ t u v, run is s = .next t ∧ s.SameDec t ∧
      eventsOfHalf .decoder t.events = eventsOfHalf .decoder s.events ∧
      exec (.decEnd d) t = .next u ∧ u.DecIdle ∧ exec (.decClr d) t = .next v ∧ v.DecIdle

/-- R176: the bounds of the transient values in a step from a state that meets R27. -/
def Obligations.TransientValuesStayInBounds : Prop :=
  ∀ (b : Byte) (v : Sym) (s : State), s.RegInv →
    let n := s.encCnt.toNat + 8
    let m := s.decCnt.toNat + 5
    (encShiftIn s.encAcc b).toNat < 2 ^ n ∧ (encShiftIn s.encAcc b).toNat < 2 ^ 12 ∧
    8 ≤ n ∧ n ≤ 12 ∧ 3 ≤ n - 5 ∧ n - 5 ≤ 7 ∧
    (5 ≤ n - 5 → n - 10 ≤ 2) ∧ (n - 5 < 5 → n - 5 ≤ 4) ∧
    (decShiftIn s.decAcc v).toNat < 2 ^ m ∧ (decShiftIn s.decAcc v).toNat < 2 ^ 12 ∧
    5 ≤ m ∧ m ≤ 12 ∧ (8 ≤ m → m - 8 ≤ 4) ∧ (m < 8 → m ≤ 7) ∧
    (finalSym s.encAcc s.encCnt.toNat).toNat < 32 ∧
    (0 < s.encCnt.toNat →
      (finalSym s.encAcc s.encCnt.toNat).toNat = s.encAcc.toNat * 2 ^ (5 - s.encCnt.toNat))

/-! ## The tables -/

/-- R61 and R64: `ENC_ROM` is injective and every entry is a digit or an upper-case letter; `DEC_ROM`
inverts it, in the lower-case form of a letter too, and gives values 0, 1 and 27 several codes, every
other letter value two. -/
def Obligations.TheTwoTablesAreInverse : Prop :=
  (∀ i j : Sym, encRom i = encRom j → i = j) ∧
  (∀ i : Sym, (isDigit (encRom i) || isUpper (encRom i)) = true) ∧
  (∀ i : Sym, validChar (encRom i) = true ∧ charValue (encRom i) = i ∧
    (isUpper (encRom i) = true →
      validChar (encRom i ||| 0x20) = true ∧ charValue (encRom i ||| 0x20) = i)) ∧
  (∀ c : Byte, validChar c = true →
    (charValue c = 0 ↔ c ∈ ([0x30, 0x4F, 0x6F] : List Byte)) ∧
    (charValue c = 1 ↔ c ∈ ([0x31, 0x49, 0x69, 0x4C, 0x6C] : List Byte)) ∧
    (charValue c = 27 ↔ c ∈ ([0x56, 0x76, 0x55, 0x75] : List Byte)) ∧
    (∀ i : Sym, i ≠ 0 → i ≠ 1 → i ≠ 27 → isUpper (encRom i) = true →
      (charValue c = i ↔ c = encRom i ∨ c = encRom i ||| 0x20)))

/-- R63: the four steps of the definition give the table of R62 at every code; R62: 62 codes are
valid. -/
def Obligations.DecRomFollowsTheNormalisationRules : Prop :=
  (∀ c : Byte, decRom c = decRomByRule c) ∧
  ((List.range 256).filter (fun n => validChar (BitVec.ofNat 8 n))).length = 62

/-! ## Messages -/

/-- R170 with R174: an encode message, with `NOP`s, illegal commands and decoder commands anywhere in
between, from any state with an idle encoder, emits the symbols of `encode_ref` and then `EncEnd`, and
leaves the encoder idle. -/
def Obligations.InterleavedEncodeMessageGivesEncodeRef : Prop :=
  ∀ (bs : List Byte) (d : Byte) (is : List Instr) (s : State), s.EncIdle →
    is.filter (fun i => decide (i.half = .encoder)) = bs.map Instr.encPush ++ [.encEnd d] →
    ∃ t, run is s = .next t ∧ t.EncIdle ∧
      eventsOfHalf .encoder t.events =
        eventsOfHalf .encoder s.events ++ (encodeRef bs).map OutEvent.encSym ++ [.encEnd]

/-- R171 with R174: a decode message, with `NOP`s, illegal commands and encoder commands anywhere in
between, from any state with an idle decoder, has the result of `decode_ref`, positions modulo
2^`POS_W`, and leaves the decoder idle. -/
def Obligations.InterleavedDecodeMessageGivesDecodeRef : Prop :=
  ∀ (cs : List Byte) (d : Byte) (is : List Instr) (s : State), s.DecIdle →
    is.filter (fun i => decide (i.half = .decoder)) = cs.map Instr.decPush ++ [.decEnd d] →
    ∃ t es, run is s = .next t ∧ t.DecIdle ∧ t.events = s.events ++ es ∧
      decodeResult es = some ((decodeRef s.params.strictPad cs).wrapPos s.params.posW)

/-- R174: the hardware's message functions agree with the document's unbounded-accumulator functions. -/
def Obligations.HardwareAgreesWithTheReference : Prop :=
  ∀ p : Params,
    (∀ bs : List Byte, encodeHw p bs = encodeRef bs) ∧
    (∀ cs : List Byte, cs.length < 2 ^ p.posW → decodeHw p cs = some (decodeRef p.strictPad cs)) ∧
    (∀ cs : List Byte, decodeHw p cs = some ((decodeRef p.strictPad cs).wrapPos p.posW))

/-- R179: decoding an encoded byte sequence gives it back, on every instance. -/
def Obligations.DecodeOfEncodeIsTheByteSequence : Prop :=
  ∀ (p : Params) (bs : List Byte), decodeHw p (encodeHw p bs) = some (.ok bs)

/-- R50: both directions are the big-endian packing of one bit string. -/
def Obligations.MessagesPackBitsBigEndian : Prop :=
  ∀ p : Params,
    (∀ bs : List Byte, encodeHw p bs = packEncode bs) ∧
    (∀ cs ys : List Byte, decodeHw p cs = some (.ok ys) → ys = packDecode (cs.map charValue)) ∧
    (∀ cs : List Byte, (∀ c ∈ cs, validChar c = true) →
      decBytes (eventsAfter (run (decodeProgram cs) (State.resetWith p))) =
        packDecode (cs.map charValue))

/-- R177: the length of an encoded string. -/
def Obligations.EncodedLengthLaw : Prop :=
  ∀ (p : Params) (bs : List Byte),
    (encodeHw p bs).length = (8 * bs.length + 4) / 5 ∧
    (encodeHw p bs).length % 8 ∈ [0, 2, 4, 5, 7]

/-- R178: the number of bytes of an accepted text, and of `DecByte` events whenever all characters are
valid. -/
def Obligations.DecodedLengthLaw : Prop :=
  ∀ (p : Params) (cs : List Byte),
    (∀ ys, decodeHw p cs = some (.ok ys) → ys.length = 5 * cs.length / 8) ∧
    ((∀ c ∈ cs, validChar c = true) →
      (decBytes (eventsAfter (run (decodeProgram cs) (State.resetWith p)))).length =
        5 * cs.length / 8)

/-- R180: the empty byte sequence and the empty text. -/
def Obligations.EmptyInputGivesEmptyOutput : Prop :=
  ∀ p : Params, encodeHw p [] = [] ∧ decodeHw p [] = some (.ok []) ∧
    eventsAfter (run (encodeProgram []) (State.resetWith p)) = [.encEnd] ∧
    eventsAfter (run (decodeProgram []) (State.resetWith p)) = [.decEnd .ok 0 0x00]

/-- R185: the four normative vectors, on every instance. -/
def Obligations.NormativeVectors : Prop :=
  ∀ p : Params, encodeHw p [0x00] = [0x30, 0x30] ∧ encodeHw p [0x01] = [0x30, 0x34] ∧
    encodeHw p [0xFF] = [0x5A, 0x57] ∧
    encodeHw p [0x01, 0x02, 0x03] = [0x30, 0x34, 0x31, 0x30, 0x36]

/-- R182: the case of letters does not matter on decode. -/
def Obligations.DecodingIgnoresCase : Prop :=
  ∀ (p : Params) (cs : List Byte),
    decodeHw p (cs.map upperChar) = decodeHw p cs ∧ decodeHw p (cs.map lowerChar) = decodeHw p cs

/-- R183: texts that the substitution of R63 step 1 makes equal have the same result. -/
def Obligations.DecodingIgnoresAliases : Prop :=
  ∀ (p : Params) (cs cs' : List Byte), cs.map substituteChar = cs'.map substituteChar →
    decodeHw p cs = decodeHw p cs'

/-- R184: the first invalid character decides the result, whatever follows and whatever `STRICT_PAD`. -/
def Obligations.FirstInvalidCharacterIsReported : Prop :=
  ∀ (p : Params) (pre post : List Byte) (c : Byte), (∀ x ∈ pre, validChar x = true) →
    validChar c = false →
    decodeHw p (pre ++ c :: post) = some (.invalidChar (pre.length % 2 ^ p.posW) c)

/-- R188: strict and lenient instances compared. -/
def Obligations.StrictAndLenientDifferInTheVerdictOnly : Prop :=
  ∀ (p : Params) (cs : List Byte),
    let strict := decodeHw { p with strictPad := true } cs
    let lenient := decodeHw { p with strictPad := false } cs
    let bytes := fun b =>
      decBytes (eventsAfter (run (decodeProgram cs) (State.resetWith { p with strictPad := b })))
    bytes true = bytes false ∧
    (∀ ys, strict = some (.ok ys) → lenient = some (.ok ys)) ∧
    (∀ pos c, strict = some (.invalidChar pos c) → lenient = some (.invalidChar pos c)) ∧
    (∀ pos, strict = some (.nonzeroPad pos) →
      lenient = some (.ok (bytes true)) ∧ (bytes true).length = 5 * cs.length / 8)

/-- R189: what has come out after `k` pushes is a prefix of the result, whatever follows; so `encode_hw`
is injective. -/
def Obligations.OutputsSoFarAreAPrefix : Prop :=
  ∀ p : Params,
    (∀ bs later : List Byte,
      encSyms (eventsAfter (run (bs.map Instr.encPush) (State.resetWith p))) =
        (encodeHw p (bs ++ later)).take (8 * bs.length / 5)) ∧
    (∀ cs later ys : List Byte, decodeHw p (cs ++ later) = some (.ok ys) →
      decBytes (eventsAfter (run (cs.map Instr.decPush) (State.resetWith p))) =
        ys.take (5 * cs.length / 8)) ∧
    (∀ bs bs' : List Byte, encodeHw p bs = encodeHw p bs' → bs = bs')

/-- R190: re-encoding an accepted text gives its canonical form when its length is one an encoder
produces, and one symbol less otherwise. -/
def Obligations.ReencodingGivesTheCanonicalText : Prop :=
  ∀ (p : Params) (cs ys : List Byte), p.strictPad = true → decodeHw p cs = some (.ok ys) →
    (cs.length % 8 ∈ [0, 2, 4, 5, 7] → encodeHw p ys = cs.map canonicalChar) ∧
    (cs.length % 8 ∉ [0, 2, 4, 5, 7] → (encodeHw p ys).length + 1 = cs.length)
end

