-- ==== Sys2Proof/Laws/Operands.lean ====
section
/-! SUPPORT. What each slice of spec/40_encoder.md and spec/41_decoder.md is as a natural number; callers
cite these and never unfold the slices. -/

namespace Sys2Proof.Machine

/-- Joining values with disjoint bits is addition (spec/43_messages_and_laws.md R175). -/
theorem shiftLeft_or_eq_add (a b k : Nat) (h : b < 2 ^ k) : a <<< k ||| b = a * 2 ^ k + b := by
  rw [Nat.shiftLeft_eq, Nat.mul_comm, Nat.two_pow_add_eq_or_of_lt h]

theorem encShiftIn_toNat (acc : BitVec 4) (b : Byte) :
    (encShiftIn acc b).toNat = acc.toNat * 2 ^ 8 + b.toNat := by
  have ha := acc.isLt
  have hb := b.isLt
  rw [← shiftLeft_or_eq_add _ _ 8 hb]
  simp only [encShiftIn, BitVec.toNat_or, BitVec.toNat_shiftLeft, BitVec.toNat_setWidth]
  rw [Nat.mod_eq_of_lt (show acc.toNat < 2 ^ 12 by omega), Nat.mod_eq_of_lt (show b.toNat < 2 ^ 12 by omega),
    Nat.mod_eq_of_lt (by rw [Nat.shiftLeft_eq]; omega)]

theorem decShiftIn_toNat (acc : BitVec 7) (v : Sym) :
    (decShiftIn acc v).toNat = acc.toNat * 2 ^ 5 + v.toNat := by
  have ha := acc.isLt
  have hv := v.isLt
  rw [← shiftLeft_or_eq_add _ _ 5 hv]
  simp only [decShiftIn, BitVec.toNat_or, BitVec.toNat_shiftLeft, BitVec.toNat_setWidth]
  rw [Nat.mod_eq_of_lt (show acc.toNat < 2 ^ 12 by omega), Nat.mod_eq_of_lt (show v.toNat < 2 ^ 12 by omega),
    Nat.mod_eq_of_lt (by rw [Nat.shiftLeft_eq]; omega)]

theorem takeSym_toNat (t : Tmp) (n : Nat) : (takeSym t n).toNat = t.toNat / 2 ^ (n - 5) % 32 := by
  simp only [takeSym, BitVec.toNat_setWidth, BitVec.toNat_and, BitVec.toNat_ushiftRight,
    Nat.shiftRight_eq_div_pow]
  rw [show (0b11111 : BitVec 12).toNat = 2 ^ 5 - 1 from rfl, Nat.and_two_pow_sub_one_eq_mod]
  omega

theorem takeByte_toNat (t : Tmp) (n : Nat) : (takeByte t n).toNat = t.toNat / 2 ^ (n - 8) % 256 := by
  simp only [takeByte, BitVec.toNat_setWidth, BitVec.toNat_and, BitVec.toNat_ushiftRight,
    Nat.shiftRight_eq_div_pow]
  rw [show (0xFF : BitVec 12).toNat = 2 ^ 8 - 1 from rfl, Nat.and_two_pow_sub_one_eq_mod]
  omega

theorem keepLow_toNat (t : Tmp) (n : Nat) (h : n ≤ 12) : (keepLow t n).toNat = t.toNat % 2 ^ n := by
  have hle : 2 ^ n ≤ 2 ^ 12 := Nat.pow_le_pow_right (by decide) h
  have hpos : 0 < 2 ^ n := Nat.two_pow_pos n
  simp only [keepLow, BitVec.toNat_and, BitVec.toNat_ofNat]
  rw [Nat.mod_eq_of_lt (show 2 ^ n - 1 < 2 ^ 12 by omega), Nat.and_two_pow_sub_one_eq_mod]

theorem finalSym_toNat (acc : BitVec 4) (cnt : Nat) :
    (finalSym acc cnt).toNat = acc.toNat * 2 ^ (5 - cnt) % 32 := by
  have ha := acc.isLt
  simp only [finalSym, BitVec.toNat_and, BitVec.toNat_shiftLeft, BitVec.toNat_setWidth, Nat.shiftLeft_eq]
  rw [show (0b11111 : BitVec 5).toNat = 2 ^ 5 - 1 from rfl, Nat.and_two_pow_sub_one_eq_mod,
    Nat.mod_eq_of_lt (show acc.toNat < 2 ^ 5 by omega)]
  omega

/-- The bits kept fit the encoder's accumulator. -/
theorem keepLow_setWidth_four (t : Tmp) (n : Nat) (h : n ≤ 4) :
    (keepLow t n).setWidth 4 = BitVec.ofNat 4 (t.toNat % 2 ^ n) := by
  apply BitVec.eq_of_toNat_eq
  rw [BitVec.toNat_setWidth, keepLow_toNat t n (by omega), BitVec.toNat_ofNat]

/-- The bits kept fit the decoder's accumulator. -/
theorem keepLow_setWidth_seven (t : Tmp) (n : Nat) (h : n ≤ 7) :
    (keepLow t n).setWidth 7 = BitVec.ofNat 7 (t.toNat % 2 ^ n) := by
  apply BitVec.eq_of_toNat_eq
  rw [BitVec.toNat_setWidth, keepLow_toNat t n (by omega), BitVec.toNat_ofNat]

theorem takeSym_eq_ofNat (t : Tmp) (n : Nat) :
    takeSym t n = BitVec.ofNat 5 (t.toNat / 2 ^ (n - 5) % 32) := by
  apply BitVec.eq_of_toNat_eq
  rw [takeSym_toNat, BitVec.toNat_ofNat]
  omega

theorem takeByte_eq_ofNat (t : Tmp) (n : Nat) :
    takeByte t n = BitVec.ofNat 8 (t.toNat / 2 ^ (n - 8) % 256) := by
  apply BitVec.eq_of_toNat_eq
  rw [takeByte_toNat, BitVec.toNat_ofNat]
  omega

end Sys2Proof.Machine
end

