-- ==== Sys2Proof/Laws/State.lean ====
section
/-! SUPPORT. One lemma for each field and each named update of State, so that no proof unfolds a record
update. -/

namespace Sys2Proof.Machine

variable (s : State)

/-! ### `emit` -/

@[simp] theorem State.emit_params (e : OutEvent) : (s.emit e).params = s.params := rfl
@[simp] theorem State.emit_inputs (e : OutEvent) : (s.emit e).inputs = s.inputs := rfl
@[simp] theorem State.emit_encAcc (e : OutEvent) : (s.emit e).encAcc = s.encAcc := rfl
@[simp] theorem State.emit_encCnt (e : OutEvent) : (s.emit e).encCnt = s.encCnt := rfl
@[simp] theorem State.emit_decAcc (e : OutEvent) : (s.emit e).decAcc = s.decAcc := rfl
@[simp] theorem State.emit_decCnt (e : OutEvent) : (s.emit e).decCnt = s.decCnt := rfl
@[simp] theorem State.emit_decPos (e : OutEvent) : (s.emit e).decPos = s.decPos := rfl
@[simp] theorem State.emit_decErr (e : OutEvent) : (s.emit e).decErr = s.decErr := rfl
@[simp] theorem State.emit_decErrPos (e : OutEvent) : (s.emit e).decErrPos = s.decErrPos := rfl
@[simp] theorem State.emit_decErrChar (e : OutEvent) : (s.emit e).decErrChar = s.decErrChar := rfl
@[simp] theorem State.emit_illCmd (e : OutEvent) : (s.emit e).illCmd = s.illCmd := rfl
@[simp] theorem State.emit_events (e : OutEvent) : (s.emit e).events = s.events ++ [e] := rfl
@[simp] theorem State.emit_outReg (e : OutEvent) : (s.emit e).outReg = s.outReg := rfl
@[simp] theorem State.emit_ports (e : OutEvent) : (s.emit e).ports = s.ports := rfl

/-! ### `setEnc` -/

@[simp] theorem State.setEnc_params (a : BitVec 4) (n : BitVec 3) : (s.setEnc a n).params = s.params := rfl
@[simp] theorem State.setEnc_inputs (a : BitVec 4) (n : BitVec 3) : (s.setEnc a n).inputs = s.inputs := rfl
@[simp] theorem State.setEnc_encAcc (a : BitVec 4) (n : BitVec 3) : (s.setEnc a n).encAcc = a := rfl
@[simp] theorem State.setEnc_encCnt (a : BitVec 4) (n : BitVec 3) : (s.setEnc a n).encCnt = n := rfl
@[simp] theorem State.setEnc_decAcc (a : BitVec 4) (n : BitVec 3) : (s.setEnc a n).decAcc = s.decAcc := rfl
@[simp] theorem State.setEnc_decCnt (a : BitVec 4) (n : BitVec 3) : (s.setEnc a n).decCnt = s.decCnt := rfl
@[simp] theorem State.setEnc_decPos (a : BitVec 4) (n : BitVec 3) : (s.setEnc a n).decPos = s.decPos := rfl
@[simp] theorem State.setEnc_decErr (a : BitVec 4) (n : BitVec 3) : (s.setEnc a n).decErr = s.decErr := rfl
@[simp] theorem State.setEnc_decErrPos (a : BitVec 4) (n : BitVec 3) : (s.setEnc a n).decErrPos = s.decErrPos := rfl
@[simp] theorem State.setEnc_decErrChar (a : BitVec 4) (n : BitVec 3) : (s.setEnc a n).decErrChar = s.decErrChar := rfl
@[simp] theorem State.setEnc_illCmd (a : BitVec 4) (n : BitVec 3) : (s.setEnc a n).illCmd = s.illCmd := rfl
@[simp] theorem State.setEnc_events (a : BitVec 4) (n : BitVec 3) : (s.setEnc a n).events = s.events := rfl
@[simp] theorem State.setEnc_outReg (a : BitVec 4) (n : BitVec 3) : (s.setEnc a n).outReg = s.outReg := rfl
@[simp] theorem State.setEnc_ports (a : BitVec 4) (n : BitVec 3) : (s.setEnc a n).ports = s.ports := rfl

/-! ### `clearEnc` -/

@[simp] theorem State.clearEnc_params : (s.clearEnc).params = s.params := rfl
@[simp] theorem State.clearEnc_inputs : (s.clearEnc).inputs = s.inputs := rfl
@[simp] theorem State.clearEnc_encAcc : (s.clearEnc).encAcc = 0 := rfl
@[simp] theorem State.clearEnc_encCnt : (s.clearEnc).encCnt = 0 := rfl
@[simp] theorem State.clearEnc_decAcc : (s.clearEnc).decAcc = s.decAcc := rfl
@[simp] theorem State.clearEnc_decCnt : (s.clearEnc).decCnt = s.decCnt := rfl
@[simp] theorem State.clearEnc_decPos : (s.clearEnc).decPos = s.decPos := rfl
@[simp] theorem State.clearEnc_decErr : (s.clearEnc).decErr = s.decErr := rfl
@[simp] theorem State.clearEnc_decErrPos : (s.clearEnc).decErrPos = s.decErrPos := rfl
@[simp] theorem State.clearEnc_decErrChar : (s.clearEnc).decErrChar = s.decErrChar := rfl
@[simp] theorem State.clearEnc_illCmd : (s.clearEnc).illCmd = s.illCmd := rfl
@[simp] theorem State.clearEnc_events : (s.clearEnc).events = s.events := rfl
@[simp] theorem State.clearEnc_outReg : (s.clearEnc).outReg = s.outReg := rfl
@[simp] theorem State.clearEnc_ports : (s.clearEnc).ports = s.ports := rfl

/-! ### `setDec` -/

@[simp] theorem State.setDec_params (a : BitVec 7) (n : BitVec 3) (p : Nat) : (s.setDec a n p).params = s.params := rfl
@[simp] theorem State.setDec_inputs (a : BitVec 7) (n : BitVec 3) (p : Nat) : (s.setDec a n p).inputs = s.inputs := rfl
@[simp] theorem State.setDec_encAcc (a : BitVec 7) (n : BitVec 3) (p : Nat) : (s.setDec a n p).encAcc = s.encAcc := rfl
@[simp] theorem State.setDec_encCnt (a : BitVec 7) (n : BitVec 3) (p : Nat) : (s.setDec a n p).encCnt = s.encCnt := rfl
@[simp] theorem State.setDec_decAcc (a : BitVec 7) (n : BitVec 3) (p : Nat) : (s.setDec a n p).decAcc = a := rfl
@[simp] theorem State.setDec_decCnt (a : BitVec 7) (n : BitVec 3) (p : Nat) : (s.setDec a n p).decCnt = n := rfl
@[simp] theorem State.setDec_decPos (a : BitVec 7) (n : BitVec 3) (p : Nat) : (s.setDec a n p).decPos = p := rfl
@[simp] theorem State.setDec_decErr (a : BitVec 7) (n : BitVec 3) (p : Nat) : (s.setDec a n p).decErr = s.decErr := rfl
@[simp] theorem State.setDec_decErrPos (a : BitVec 7) (n : BitVec 3) (p : Nat) : (s.setDec a n p).decErrPos = s.decErrPos := rfl
@[simp] theorem State.setDec_decErrChar (a : BitVec 7) (n : BitVec 3) (p : Nat) : (s.setDec a n p).decErrChar = s.decErrChar := rfl
@[simp] theorem State.setDec_illCmd (a : BitVec 7) (n : BitVec 3) (p : Nat) : (s.setDec a n p).illCmd = s.illCmd := rfl
@[simp] theorem State.setDec_events (a : BitVec 7) (n : BitVec 3) (p : Nat) : (s.setDec a n p).events = s.events := rfl
@[simp] theorem State.setDec_outReg (a : BitVec 7) (n : BitVec 3) (p : Nat) : (s.setDec a n p).outReg = s.outReg := rfl
@[simp] theorem State.setDec_ports (a : BitVec 7) (n : BitVec 3) (p : Nat) : (s.setDec a n p).ports = s.ports := rfl

/-! ### `latchErr` -/

@[simp] theorem State.latchErr_params (p : Nat) (c : Byte) : (s.latchErr p c).params = s.params := rfl
@[simp] theorem State.latchErr_inputs (p : Nat) (c : Byte) : (s.latchErr p c).inputs = s.inputs := rfl
@[simp] theorem State.latchErr_encAcc (p : Nat) (c : Byte) : (s.latchErr p c).encAcc = s.encAcc := rfl
@[simp] theorem State.latchErr_encCnt (p : Nat) (c : Byte) : (s.latchErr p c).encCnt = s.encCnt := rfl
@[simp] theorem State.latchErr_decAcc (p : Nat) (c : Byte) : (s.latchErr p c).decAcc = s.decAcc := rfl
@[simp] theorem State.latchErr_decCnt (p : Nat) (c : Byte) : (s.latchErr p c).decCnt = s.decCnt := rfl
@[simp] theorem State.latchErr_decPos (p : Nat) (c : Byte) : (s.latchErr p c).decPos = s.decPos := rfl
@[simp] theorem State.latchErr_decErr (p : Nat) (c : Byte) : (s.latchErr p c).decErr = true := rfl
@[simp] theorem State.latchErr_decErrPos (p : Nat) (c : Byte) : (s.latchErr p c).decErrPos = p := rfl
@[simp] theorem State.latchErr_decErrChar (p : Nat) (c : Byte) : (s.latchErr p c).decErrChar = c := rfl
@[simp] theorem State.latchErr_illCmd (p : Nat) (c : Byte) : (s.latchErr p c).illCmd = s.illCmd := rfl
@[simp] theorem State.latchErr_events (p : Nat) (c : Byte) : (s.latchErr p c).events = s.events := rfl
@[simp] theorem State.latchErr_outReg (p : Nat) (c : Byte) : (s.latchErr p c).outReg = s.outReg := rfl
@[simp] theorem State.latchErr_ports (p : Nat) (c : Byte) : (s.latchErr p c).ports = s.ports := rfl

/-! ### `clearErr` -/

@[simp] theorem State.clearErr_params : (s.clearErr).params = s.params := rfl
@[simp] theorem State.clearErr_inputs : (s.clearErr).inputs = s.inputs := rfl
@[simp] theorem State.clearErr_encAcc : (s.clearErr).encAcc = s.encAcc := rfl
@[simp] theorem State.clearErr_encCnt : (s.clearErr).encCnt = s.encCnt := rfl
@[simp] theorem State.clearErr_decAcc : (s.clearErr).decAcc = s.decAcc := rfl
@[simp] theorem State.clearErr_decCnt : (s.clearErr).decCnt = s.decCnt := rfl
@[simp] theorem State.clearErr_decPos : (s.clearErr).decPos = s.decPos := rfl
@[simp] theorem State.clearErr_decErr : (s.clearErr).decErr = false := rfl
@[simp] theorem State.clearErr_decErrPos : (s.clearErr).decErrPos = 0 := rfl
@[simp] theorem State.clearErr_decErrChar : (s.clearErr).decErrChar = 0x00 := rfl
@[simp] theorem State.clearErr_illCmd : (s.clearErr).illCmd = s.illCmd := rfl
@[simp] theorem State.clearErr_events : (s.clearErr).events = s.events := rfl
@[simp] theorem State.clearErr_outReg : (s.clearErr).outReg = s.outReg := rfl
@[simp] theorem State.clearErr_ports : (s.clearErr).ports = s.ports := rfl

/-! ### `clearDec` -/

@[simp] theorem State.clearDec_params : (s.clearDec).params = s.params := rfl
@[simp] theorem State.clearDec_inputs : (s.clearDec).inputs = s.inputs := rfl
@[simp] theorem State.clearDec_encAcc : (s.clearDec).encAcc = s.encAcc := rfl
@[simp] theorem State.clearDec_encCnt : (s.clearDec).encCnt = s.encCnt := rfl
@[simp] theorem State.clearDec_decAcc : (s.clearDec).decAcc = 0 := rfl
@[simp] theorem State.clearDec_decCnt : (s.clearDec).decCnt = 0 := rfl
@[simp] theorem State.clearDec_decPos : (s.clearDec).decPos = 0 := rfl
@[simp] theorem State.clearDec_decErr : (s.clearDec).decErr = false := rfl
@[simp] theorem State.clearDec_decErrPos : (s.clearDec).decErrPos = 0 := rfl
@[simp] theorem State.clearDec_decErrChar : (s.clearDec).decErrChar = 0x00 := rfl
@[simp] theorem State.clearDec_illCmd : (s.clearDec).illCmd = s.illCmd := rfl
@[simp] theorem State.clearDec_events : (s.clearDec).events = s.events := rfl
@[simp] theorem State.clearDec_outReg : (s.clearDec).outReg = s.outReg := rfl
@[simp] theorem State.clearDec_ports : (s.clearDec).ports = s.ports := rfl

/-! ### `setIllCmd` -/

@[simp] theorem State.setIllCmd_params : (s.setIllCmd).params = s.params := rfl
@[simp] theorem State.setIllCmd_inputs : (s.setIllCmd).inputs = s.inputs := rfl
@[simp] theorem State.setIllCmd_encAcc : (s.setIllCmd).encAcc = s.encAcc := rfl
@[simp] theorem State.setIllCmd_encCnt : (s.setIllCmd).encCnt = s.encCnt := rfl
@[simp] theorem State.setIllCmd_decAcc : (s.setIllCmd).decAcc = s.decAcc := rfl
@[simp] theorem State.setIllCmd_decCnt : (s.setIllCmd).decCnt = s.decCnt := rfl
@[simp] theorem State.setIllCmd_decPos : (s.setIllCmd).decPos = s.decPos := rfl
@[simp] theorem State.setIllCmd_decErr : (s.setIllCmd).decErr = s.decErr := rfl
@[simp] theorem State.setIllCmd_decErrPos : (s.setIllCmd).decErrPos = s.decErrPos := rfl
@[simp] theorem State.setIllCmd_decErrChar : (s.setIllCmd).decErrChar = s.decErrChar := rfl
@[simp] theorem State.setIllCmd_illCmd : (s.setIllCmd).illCmd = true := rfl
@[simp] theorem State.setIllCmd_events : (s.setIllCmd).events = s.events := rfl
@[simp] theorem State.setIllCmd_outReg : (s.setIllCmd).outReg = s.outReg := rfl
@[simp] theorem State.setIllCmd_ports : (s.setIllCmd).ports = s.ports := rfl

/-! ### `beginStep` -/

@[simp] theorem State.beginStep_params : (s.beginStep).params = s.params := rfl
@[simp] theorem State.beginStep_inputs : (s.beginStep).inputs = s.inputs := rfl
@[simp] theorem State.beginStep_encAcc : (s.beginStep).encAcc = s.encAcc := rfl
@[simp] theorem State.beginStep_encCnt : (s.beginStep).encCnt = s.encCnt := rfl
@[simp] theorem State.beginStep_decAcc : (s.beginStep).decAcc = s.decAcc := rfl
@[simp] theorem State.beginStep_decCnt : (s.beginStep).decCnt = s.decCnt := rfl
@[simp] theorem State.beginStep_decPos : (s.beginStep).decPos = s.decPos := rfl
@[simp] theorem State.beginStep_decErr : (s.beginStep).decErr = s.decErr := rfl
@[simp] theorem State.beginStep_decErrPos : (s.beginStep).decErrPos = s.decErrPos := rfl
@[simp] theorem State.beginStep_decErrChar : (s.beginStep).decErrChar = s.decErrChar := rfl
@[simp] theorem State.beginStep_illCmd : (s.beginStep).illCmd = s.illCmd := rfl
@[simp] theorem State.beginStep_events : (s.beginStep).events = [] := rfl
@[simp] theorem State.beginStep_outReg : (s.beginStep).outReg = s.outReg := rfl
@[simp] theorem State.beginStep_ports : (s.beginStep).ports = s.ports := rfl

/-! ### `resetRegs` -/

@[simp] theorem State.resetRegs_params : (s.resetRegs).params = s.params := rfl
@[simp] theorem State.resetRegs_inputs : (s.resetRegs).inputs = s.inputs := rfl
@[simp] theorem State.resetRegs_encAcc : (s.resetRegs).encAcc = 0 := rfl
@[simp] theorem State.resetRegs_encCnt : (s.resetRegs).encCnt = 0 := rfl
@[simp] theorem State.resetRegs_decAcc : (s.resetRegs).decAcc = 0 := rfl
@[simp] theorem State.resetRegs_decCnt : (s.resetRegs).decCnt = 0 := rfl
@[simp] theorem State.resetRegs_decPos : (s.resetRegs).decPos = 0 := rfl
@[simp] theorem State.resetRegs_decErr : (s.resetRegs).decErr = false := rfl
@[simp] theorem State.resetRegs_decErrPos : (s.resetRegs).decErrPos = 0 := rfl
@[simp] theorem State.resetRegs_decErrChar : (s.resetRegs).decErrChar = 0x00 := rfl
@[simp] theorem State.resetRegs_illCmd : (s.resetRegs).illCmd = false := rfl
@[simp] theorem State.resetRegs_events : (s.resetRegs).events = [] := rfl
@[simp] theorem State.resetRegs_outReg : (s.resetRegs).outReg = OutPorts.idle := rfl
@[simp] theorem State.resetRegs_ports : (s.resetRegs).ports = OutPorts.idle := rfl

/-! ### `latchOutputs` -/

@[simp] theorem latchOutputs_params (t : State) : (latchOutputs s t).params = t.params := rfl
@[simp] theorem latchOutputs_inputs (t : State) : (latchOutputs s t).inputs = t.inputs := rfl
@[simp] theorem latchOutputs_encAcc (t : State) : (latchOutputs s t).encAcc = t.encAcc := rfl
@[simp] theorem latchOutputs_encCnt (t : State) : (latchOutputs s t).encCnt = t.encCnt := rfl
@[simp] theorem latchOutputs_decAcc (t : State) : (latchOutputs s t).decAcc = t.decAcc := rfl
@[simp] theorem latchOutputs_decCnt (t : State) : (latchOutputs s t).decCnt = t.decCnt := rfl
@[simp] theorem latchOutputs_decPos (t : State) : (latchOutputs s t).decPos = t.decPos := rfl
@[simp] theorem latchOutputs_decErr (t : State) : (latchOutputs s t).decErr = t.decErr := rfl
@[simp] theorem latchOutputs_decErrPos (t : State) : (latchOutputs s t).decErrPos = t.decErrPos := rfl
@[simp] theorem latchOutputs_decErrChar (t : State) : (latchOutputs s t).decErrChar = t.decErrChar := rfl
@[simp] theorem latchOutputs_illCmd (t : State) : (latchOutputs s t).illCmd = t.illCmd := rfl
@[simp] theorem latchOutputs_events (t : State) : (latchOutputs s t).events = t.events := rfl
@[simp] theorem latchOutputs_outReg (t : State) : (latchOutputs s t).outReg =
    if t.params.pipe then portsOf t.events else OutPorts.idle := rfl
@[simp] theorem latchOutputs_ports (t : State) : (latchOutputs s t).ports =
    if t.params.pipe then s.outReg else portsOf t.events := rfl

/-! ### `State.resetWith` -/

@[simp] theorem State.resetWith_params (p : Params) : (State.resetWith p).params = p := rfl
@[simp] theorem State.resetWith_inputs (p : Params) : (State.resetWith p).inputs = [] := rfl
@[simp] theorem State.resetWith_encAcc (p : Params) : (State.resetWith p).encAcc = 0 := rfl
@[simp] theorem State.resetWith_encCnt (p : Params) : (State.resetWith p).encCnt = 0 := rfl
@[simp] theorem State.resetWith_decAcc (p : Params) : (State.resetWith p).decAcc = 0 := rfl
@[simp] theorem State.resetWith_decCnt (p : Params) : (State.resetWith p).decCnt = 0 := rfl
@[simp] theorem State.resetWith_decPos (p : Params) : (State.resetWith p).decPos = 0 := rfl
@[simp] theorem State.resetWith_decErr (p : Params) : (State.resetWith p).decErr = false := rfl
@[simp] theorem State.resetWith_decErrPos (p : Params) : (State.resetWith p).decErrPos = 0 := rfl
@[simp] theorem State.resetWith_decErrChar (p : Params) : (State.resetWith p).decErrChar = 0 := rfl
@[simp] theorem State.resetWith_illCmd (p : Params) : (State.resetWith p).illCmd = false := rfl
@[simp] theorem State.resetWith_events (p : Params) : (State.resetWith p).events = [] := rfl
@[simp] theorem State.resetWith_outReg (p : Params) : (State.resetWith p).outReg = OutPorts.idle := rfl
@[simp] theorem State.resetWith_ports (p : Params) : (State.resetWith p).ports = OutPorts.idle := rfl

/-- Two updates of different halves commute. -/
theorem State.setEnc_setDec (a : BitVec 4) (n : BitVec 3) (a' : BitVec 7) (n' : BitVec 3) (p : Nat) :
    (s.setEnc a n).setDec a' n' p = (s.setDec a' n' p).setEnc a n := rfl

end Sys2Proof.Machine
end

