-- ==== Sys2Proof/Laws/Commands.lean ====
section
/-! SUPPORT. Each command's state function by cases, every case a chain of named updates: the lemmas that
callers rewrite with and so never unfold a command. -/

namespace Sys2Proof.Machine

variable {s : State}

/-- `ENC_PUSH` from a count of 0 or 1 completes one symbol (R110). -/
theorem encPushState_oneSym (b : Byte) (h : s.encCnt.toNat < 2) :
    encPushState b s =
      (s.emit (.encSym (encRom (takeSym (encShiftIn s.encAcc b) (s.encCnt.toNat + 8))))).setEnc
        ((keepLow (encShiftIn s.encAcc b) (s.encCnt.toNat + 3)).setWidth 4)
        (BitVec.ofNat 3 (s.encCnt.toNat + 3)) := by
  rw [encPushState]
  exact if_neg (by omega)

/-- `ENC_PUSH` from a count of 2 or more completes two symbols (R110). -/
theorem encPushState_twoSyms (b : Byte) (h : 2 ≤ s.encCnt.toNat) :
    encPushState b s =
      ((s.emit (.encSym (encRom (takeSym (encShiftIn s.encAcc b) (s.encCnt.toNat + 8))))).emit
        (.encSym (encRom (takeSym (encShiftIn s.encAcc b) (s.encCnt.toNat + 3))))).setEnc
        ((keepLow (encShiftIn s.encAcc b) (s.encCnt.toNat - 2)).setWidth 4)
        (BitVec.ofNat 3 (s.encCnt.toNat - 2)) := by
  rw [encPushState, if_pos (by omega), show s.encCnt.toNat + 8 - 5 = s.encCnt.toNat + 3 by omega,
    show s.encCnt.toNat + 3 - 5 = s.encCnt.toNat - 2 by omega]

/-- `ENC_END` on a group boundary emits the end marker alone (R111). -/
theorem encEndState_boundary (h : s.encCnt.toNat = 0) : encEndState s = (s.emit .encEnd).clearEnc := by
  rw [encEndState, if_neg (by omega)]

/-- `ENC_END` with buffered bits emits the final symbol before the end marker (R111). -/
theorem encEndState_partial (h : 0 < s.encCnt.toNat) :
    encEndState s =
      ((s.emit (.encSym (encRom (finalSym s.encAcc s.encCnt.toNat)))).emit .encEnd).clearEnc := by
  rw [encEndState, if_pos h]

/-- `DEC_PUSH` in the error condition changes nothing (R131). -/
theorem decPushState_ignored (c : Byte) (h : s.decErr = true) : decPushState c s = s := by
  rw [decPushState, if_pos h]

/-- `DEC_PUSH` of an invalid character latches the error (R201). -/
theorem decPushState_invalid (c : Byte) (h : s.decErr = false) (hc : validChar c = false) :
    decPushState c s = s.latchErr s.decPos c := by
  simp [decPushState, h, show romValid (decRom c) = false from hc, raise]

/-- `DEC_PUSH` of a valid character that completes no byte (R130). -/
theorem decPushState_noByte (c : Byte) (h : s.decErr = false) (hc : validChar c = true)
    (hn : s.decCnt.toNat < 3) :
    decPushState c s =
      s.setDec ((keepLow (decShiftIn s.decAcc (charValue c)) (s.decCnt.toNat + 5)).setWidth 7)
        (BitVec.ofNat 3 (s.decCnt.toNat + 5)) s.nextPos := by
  rw [decPushState, if_neg (by simp [h]), if_pos (show romValid (decRom c) = true from hc), decPushValid,
    if_neg (by omega), charValue]

/-- `DEC_PUSH` of a valid character that completes a byte (R130). -/
theorem decPushState_byte (c : Byte) (h : s.decErr = false) (hc : validChar c = true)
    (hn : 3 ≤ s.decCnt.toNat) :
    decPushState c s =
      (s.emit (.decByte (takeByte (decShiftIn s.decAcc (charValue c)) (s.decCnt.toNat + 5)))).setDec
        ((keepLow (decShiftIn s.decAcc (charValue c)) (s.decCnt.toNat - 3)).setWidth 7)
        (BitVec.ofNat 3 (s.decCnt.toNat - 3)) s.nextPos := by
  rw [decPushState, if_neg (by simp [h]), if_pos (show romValid (decRom c) = true from hc), decPushValid,
    if_pos (by omega), show s.decCnt.toNat + 5 - 8 = s.decCnt.toNat - 3 by omega, charValue]

/-- Everything `DEC_PUSH` can do: it ignores the character, latches the error, or takes in a valid
character with or without completing a byte. -/
theorem decPushState_cases (c : Byte) (s : State) :
    (s.decErr = true ∧ decPushState c s = s) ∨
    (s.decErr = false ∧ validChar c = false ∧ decPushState c s = s.latchErr s.decPos c) ∨
    (s.decErr = false ∧ validChar c = true ∧ s.decCnt.toNat < 3 ∧ decPushState c s =
      s.setDec ((keepLow (decShiftIn s.decAcc (charValue c)) (s.decCnt.toNat + 5)).setWidth 7)
        (BitVec.ofNat 3 (s.decCnt.toNat + 5)) s.nextPos) ∨
    (s.decErr = false ∧ validChar c = true ∧ 3 ≤ s.decCnt.toNat ∧ decPushState c s =
      (s.emit (.decByte (takeByte (decShiftIn s.decAcc (charValue c)) (s.decCnt.toNat + 5)))).setDec
        ((keepLow (decShiftIn s.decAcc (charValue c)) (s.decCnt.toNat - 3)).setWidth 7)
        (BitVec.ofNat 3 (s.decCnt.toNat - 3)) s.nextPos) := by
  cases h : s.decErr with
  | true => exact .inl ⟨rfl, decPushState_ignored c h⟩
  | false =>
    cases hc : validChar c with
    | false => exact .inr (.inl ⟨rfl, rfl, decPushState_invalid c h hc⟩)
    | true =>
      rcases Nat.lt_or_ge s.decCnt.toNat 3 with hn | hn
      · exact .inr (.inr (.inl ⟨rfl, rfl, hn, decPushState_noByte c h hc hn⟩))
      · exact .inr (.inr (.inr ⟨rfl, rfl, hn, decPushState_byte c h hc hn⟩))

/-- The padding test as the rule states it (R132). -/
theorem padFault_iff (s : State) :
    s.padFault = true ↔ s.params.strictPad = true ∧ 0 < s.decCnt.toNat ∧ s.decAcc ≠ 0 := by
  simp [State.padFault, and_assoc]

/-- The verdict of a text with an invalid character (R132). -/
theorem decVerdict_error (h : s.decErr = true) :
    decVerdict s = s.emit (.decEnd .invalidChar s.decErrPos s.decErrChar) := by
  rw [decVerdict, if_pos h]

/-- The verdict of a text with non-zero left-over bits on a strict instance (R132, R202). -/
theorem decVerdict_pad (h : s.decErr = false) (hp : s.padFault = true) :
    decVerdict s = s.emit (.decEnd .nonzeroPad s.decPos 0x00) := by
  rw [decVerdict, if_neg (by simp [h]), if_pos hp]
  rfl

/-- The verdict of an accepted text (R132). -/
theorem decVerdict_ok (h : s.decErr = false) (hp : s.padFault = false) :
    decVerdict s = s.emit (.decEnd .ok s.decPos 0x00) := by
  rw [decVerdict, if_neg (by simp [h]), if_neg (by simp [hp])]

/-- Every verdict is one `DecEnd` event. -/
theorem decVerdict_emits (s : State) : ∃ st pos c, decVerdict s = s.emit (.decEnd st pos c) := by
  cases h : s.decErr with
  | true => exact ⟨_, _, _, decVerdict_error h⟩
  | false =>
    cases hp : s.padFault with
    | true => exact ⟨_, _, _, decVerdict_pad h hp⟩
    | false => exact ⟨_, _, _, decVerdict_ok h hp⟩

@[simp] theorem State.beginStep_padFault (s : State) : s.beginStep.padFault = s.padFault := rfl

@[simp] theorem State.beginStep_nextPos (s : State) : s.beginStep.nextPos = s.nextPos := rfl

end Sys2Proof.Machine
end

