-- ==== Sys2Proof/Laws/Exec.lean ====
section
/-! SUPPORT. What `exec`, `run`, `cycle` and `step` can do, said once: a command always answers a next
state, which one function names, and each shared operation has one lemma. -/

namespace Sys2Proof.Machine

/-- The state a command leaves. -/
def after (i : Instr) (s : State) : State :=
  match i with
  | .nop _ => s
  | .encPush b => encPushState b s
  | .encEnd _ => encEndState s
  | .encClr _ => s.clearEnc
  | .illegal100 _ => s.setIllCmd
  | .decPush c => decPushState c s
  | .decEnd _ => (decVerdict s).clearDec
  | .decClr _ => s.clearDec

/-- `exec` answers exactly the next state `after` names. -/
theorem exec_eq_after (i : Instr) (s : State) : exec i s = .next (after i s) := by
  cases i <;> rfl

/-- The one inversion lemma of `exec`. -/
theorem exec_next {i : Instr} {s t : State} (h : exec i s = .next t) : t = after i s := by
  rw [exec_eq_after] at h
  cases h
  rfl

@[simp] theorem andThen_next (s : State) (f : State → Host.Outcome State Fault Refusal) :
    andThen (.next s) f = f s := rfl

/-- The state a command sequence leaves. -/
def afterAll : List Instr → State → State
  | [], s => s
  | i :: is, s => afterAll is (after i s)

@[simp] theorem afterAll_nil (s : State) : afterAll [] s = s := rfl

@[simp] theorem afterAll_cons (i : Instr) (is : List Instr) (s : State) :
    afterAll (i :: is) s = afterAll is (after i s) := rfl

theorem afterAll_append (is js : List Instr) (s : State) :
    afterAll (is ++ js) s = afterAll js (afterAll is s) := by
  induction is generalizing s with
  | nil => rfl
  | cons i is ih => exact ih (after i s)

/-- `run` answers exactly the next state `afterAll` names. -/
theorem run_eq_afterAll (is : List Instr) (s : State) : run is s = .next (afterAll is s) := by
  induction is generalizing s with
  | nil => rfl
  | cons i is ih => rw [run, exec_eq_after, andThen_next, ih, afterAll_cons]

/-- The inversion lemma of `cycle` for a reset cycle (R232). -/
theorem cycle_of_rst {c : CycleIn} (s : State) (h : c.rst = true) :
    cycle c s = .next (latchOutputs s s.resetRegs) := by
  simp [cycle, h]

/-- For a cycle with a command (R230). -/
theorem cycle_of_cmd {c : CycleIn} (s : State) (h : c.rst = false) (hv : c.cmdValid = true) :
    cycle c s = .next (latchOutputs s (after (decode c.cmd) s.beginStep)) := by
  simp [cycle, h, hv, exec_eq_after]

/-- For a cycle without one (R164). -/
theorem cycle_of_idle {c : CycleIn} (s : State) (h : c.rst = false) (hv : c.cmdValid = false) :
    cycle c s = .next (latchOutputs s s.beginStep) := by
  simp [cycle, h, hv]

/-- What one clock cycle leaves before the outputs are latched: it says everything a cycle can do. -/
theorem cycle_cases (c : CycleIn) (s : State) : ∃ t, cycle c s = .next (latchOutputs s t) ∧
    ((c.rst = true ∧ t = s.resetRegs) ∨
     (c.rst = false ∧ c.cmdValid = true ∧ t = after (decode c.cmd) s.beginStep) ∨
     (c.rst = false ∧ c.cmdValid = false ∧ t = s.beginStep)) := by
  cases hr : c.rst with
  | true => exact ⟨_, cycle_of_rst s hr, .inl ⟨rfl, rfl⟩⟩
  | false =>
    cases hv : c.cmdValid with
    | true => exact ⟨_, cycle_of_cmd s hr hv, .inr (.inl ⟨rfl, rfl, rfl⟩)⟩
    | false => exact ⟨_, cycle_of_idle s hr hv, .inr (.inr ⟨rfl, rfl, rfl⟩)⟩

/-- Everything a command can change: its own half's registers and its events. The events are appended to
those already there, and are those it emits from an empty list. -/
theorem after_events (i : Instr) (s : State) :
    (after i s).events = s.events ++ (after i s.beginStep).events := by
  cases i with
  | nop d => simp [after]
  | encPush b =>
    rcases Nat.lt_or_ge s.encCnt.toNat 2 with h | h
    · simp [after, encPushState_oneSym b h, encPushState_oneSym (s := s.beginStep) b h]
    · simp [after, encPushState_twoSyms b h, encPushState_twoSyms (s := s.beginStep) b h]
  | encEnd d =>
    rcases Nat.eq_zero_or_pos s.encCnt.toNat with h | h
    · simp [after, encEndState_boundary h, encEndState_boundary (s := s.beginStep) h]
    · simp [after, encEndState_partial h, encEndState_partial (s := s.beginStep) h]
  | encClr d => simp [after]
  | illegal100 d => simp [after]
  | decPush c =>
    rcases decPushState_cases c s with ⟨h, e⟩ | ⟨h, hc, e⟩ | ⟨h, hc, hn, e⟩ | ⟨h, hc, hn, e⟩
    · simp [after, e, decPushState_ignored (s := s.beginStep) c h]
    · simp [after, e, decPushState_invalid (s := s.beginStep) c h hc]
    · simp [after, e, decPushState_noByte (s := s.beginStep) c h hc hn]
    · simp [after, e, decPushState_byte (s := s.beginStep) c h hc hn]
  | decEnd d =>
    cases h : s.decErr with
    | true => simp [after, decVerdict_error h, decVerdict_error (s := s.beginStep) h]
    | false =>
      cases hp : s.padFault with
      | true => simp [after, decVerdict_pad h hp, decVerdict_pad (s := s.beginStep) h hp]
      | false => simp [after, decVerdict_ok h hp, decVerdict_ok (s := s.beginStep) h hp]
  | decClr d => simp [after]

/-- No command writes a parameter, what the host drives next, or an output register or port. -/
theorem after_environment (i : Instr) (s : State) :
    (after i s).params = s.params ∧ (after i s).inputs = s.inputs ∧
    (after i s).outReg = s.outReg ∧ (after i s).ports = s.ports := by
  cases i with
  | nop d => simp [after]
  | encPush b =>
    rcases Nat.lt_or_ge s.encCnt.toNat 2 with h | h
    · simp [after, encPushState_oneSym b h]
    · simp [after, encPushState_twoSyms b h]
  | encEnd d =>
    rcases Nat.eq_zero_or_pos s.encCnt.toNat with h | h
    · simp [after, encEndState_boundary h]
    · simp [after, encEndState_partial h]
  | encClr d => simp [after]
  | illegal100 d => simp [after]
  | decPush c =>
    rcases decPushState_cases c s with ⟨_, e⟩ | ⟨_, _, e⟩ | ⟨_, _, _, e⟩ | ⟨_, _, _, e⟩ <;> simp [after, e]
  | decEnd d =>
    obtain ⟨st, pos, c, e⟩ := decVerdict_emits s
    simp [after, e]
  | decClr d => simp [after]

@[simp] theorem after_params (i : Instr) (s : State) : (after i s).params = s.params :=
  (after_environment i s).1

@[simp] theorem after_inputs (i : Instr) (s : State) : (after i s).inputs = s.inputs :=
  (after_environment i s).2.1

@[simp] theorem portsOf_nil : portsOf [] = OutPorts.idle := rfl

/-- The registers and parameters of a state, with nothing in its environment and no events. -/
def State.bare (s : State) : State :=
  { State.resetWith s.params with
    encAcc := s.encAcc, encCnt := s.encCnt, decAcc := s.decAcc, decCnt := s.decCnt, decPos := s.decPos
    decErr := s.decErr, decErrPos := s.decErrPos, decErrChar := s.decErrChar, illCmd := s.illCmd }

/-- What a command does to the registers and emits is fixed by the registers and parameters alone. -/
theorem after_bare (i : Instr) (s : State) :
    (after i s).regs = (after i s.bare).regs ∧ (after i s.beginStep).events = (after i s.bare).events := by
  cases i with
  | nop d => exact ⟨rfl, rfl⟩
  | encPush b =>
    simp only [after]
    rcases Nat.lt_or_ge s.encCnt.toNat 2 with h | h
    · rw [encPushState_oneSym b h, encPushState_oneSym (s := s.bare) b h,
        encPushState_oneSym (s := s.beginStep) b h]
      exact ⟨rfl, rfl⟩
    · rw [encPushState_twoSyms b h, encPushState_twoSyms (s := s.bare) b h,
        encPushState_twoSyms (s := s.beginStep) b h]
      exact ⟨rfl, rfl⟩
  | encEnd d =>
    simp only [after]
    rcases Nat.eq_zero_or_pos s.encCnt.toNat with h | h
    · rw [encEndState_boundary h, encEndState_boundary (s := s.bare) h,
        encEndState_boundary (s := s.beginStep) h]
      exact ⟨rfl, rfl⟩
    · rw [encEndState_partial h, encEndState_partial (s := s.bare) h,
        encEndState_partial (s := s.beginStep) h]
      exact ⟨rfl, rfl⟩
  | encClr d => exact ⟨rfl, rfl⟩
  | illegal100 d => exact ⟨rfl, rfl⟩
  | decPush c =>
    simp only [after]
    rcases decPushState_cases c s with ⟨h, e⟩ | ⟨h, hc, e⟩ | ⟨h, hc, hn, e⟩ | ⟨h, hc, hn, e⟩ <;> rw [e]
    · rw [decPushState_ignored (s := s.bare) c h, decPushState_ignored (s := s.beginStep) c h]
      exact ⟨rfl, rfl⟩
    · rw [decPushState_invalid (s := s.bare) c h hc, decPushState_invalid (s := s.beginStep) c h hc]
      exact ⟨rfl, rfl⟩
    · rw [decPushState_noByte (s := s.bare) c h hc hn, decPushState_noByte (s := s.beginStep) c h hc hn]
      exact ⟨rfl, rfl⟩
    · rw [decPushState_byte (s := s.bare) c h hc hn, decPushState_byte (s := s.beginStep) c h hc hn]
      exact ⟨rfl, rfl⟩
  | decEnd d =>
    simp only [after]
    cases h : s.decErr with
    | true =>
      rw [decVerdict_error h, decVerdict_error (s := s.bare) h, decVerdict_error (s := s.beginStep) h]
      exact ⟨rfl, rfl⟩
    | false =>
      cases hp : s.padFault with
      | true =>
        rw [decVerdict_pad h hp, decVerdict_pad (s := s.bare) h hp, decVerdict_pad (s := s.beginStep) h hp]
        exact ⟨rfl, rfl⟩
      | false =>
        rw [decVerdict_ok h hp, decVerdict_ok (s := s.bare) h hp, decVerdict_ok (s := s.beginStep) h hp]
        exact ⟨rfl, rfl⟩
  | decClr d => exact ⟨rfl, rfl⟩

/-- Two states with equal registers and parameters stay so under a command, which emits the same events
in both. -/
theorem after_regs_congr (i : Instr) {s s' : State} (hr : s.regs = s'.regs) (hp : s.params = s'.params) :
    (after i s).regs = (after i s').regs ∧
    ∃ es, (after i s).events = s.events ++ es ∧ (after i s').events = s'.events ++ es := by
  have hb : s.bare = s'.bare := by
    simp only [State.regs, Regs.mk.injEq] at hr
    simp only [State.bare, hp, hr]
  refine ⟨by rw [(after_bare i s).1, hb, ← (after_bare i s').1], _, after_events i s, ?_⟩
  rw [after_events, (after_bare i s).2, hb, ← (after_bare i s').2]

/-- The one inversion lemma of `step`: which input cycle it took and what it left before the outputs were
latched. -/
theorem step_cases {s t : State} (h : step s = .next t) :
    ∃ (c : CycleIn) (rest : List CycleIn) (u : State), t = latchOutputs { s with inputs := rest } u ∧
      ((c.rst = true ∧ u = ({ s with inputs := rest } : State).resetRegs) ∨
       (c.rst = false ∧ c.cmdValid = true ∧
          u = after (decode c.cmd) ({ s with inputs := rest } : State).beginStep) ∨
       (c.rst = false ∧ c.cmdValid = false ∧ u = ({ s with inputs := rest } : State).beginStep)) := by
  simp only [step] at h
  split at h
  · rename_i hi
    obtain ⟨u, hu, hc⟩ := cycle_cases CycleIn.idle s
    have hs : s = { s with inputs := [] } := by cases s; simp_all
    rw [hu] at h
    cases h
    exact ⟨CycleIn.idle, [], u, by rw [← hs], by rw [← hs]; exact hc⟩
  · rename_i c rest hi
    obtain ⟨u, hu, hc⟩ := cycle_cases c { s with inputs := rest }
    rw [hu] at h
    cases h
    exact ⟨c, rest, u, rfl, hc⟩

/-- One step of a run of the machine. -/
theorem core_run_succ {s t : State} (k : Nat) (h : step s = .next t) :
    Host.Core.run Sys2Proof.core (k + 1) s = Host.Core.run Sys2Proof.core k t := by
  have hs : Sys2Proof.core.step s = .next t := h
  simp only [Host.Core.run, hs]

end Sys2Proof.Machine
end

