-- ==== Sys2Proof/Laws/Messages.lean ====
section
/-! SUPPORT. The simulation between the registers and the document's unbounded accumulator: the bits the
hardware drops are bits the reference never reads (spec/10_state.md R28). One lemma for each command;
the message-level statements are inductions over them. -/

namespace Sys2Proof.Machine

/-- The encoder's registers hold the low `n` bits of the reference's accumulator `acc`. -/
structure EncTracks (s : State) (acc n : Nat) : Prop where
  cnt : s.encCnt.toNat = n
  le : n ≤ 4
  acc : s.encAcc.toNat = acc % 2 ^ n

/-- The decoder's registers hold the low `n` bits of the reference's accumulator `acc`, after `i` valid
characters. -/
structure DecTracks (s : State) (i acc n : Nat) : Prop where
  err : s.decErr = false
  cnt : s.decCnt.toNat = n
  acc : s.decAcc.toNat = acc % 2 ^ n
  pos : s.decPos = i % 2 ^ s.params.posW

theorem EncTracks.of_idle {s : State} (h : s.EncIdle) : EncTracks s 0 0 :=
  ⟨by simp [h.2], by omega, by simp [h.1]⟩

theorem DecTracks.of_idle {s : State} (h : s.DecIdle) : DecTracks s 0 0 0 := by
  obtain ⟨h1, h2, h3, h4, -, -⟩ := h
  exact ⟨h4, by simp [h2], by simp [h1], by simp [h3]⟩

/-- Reading bits that lie within the tracked ones: dropping higher bits first changes nothing. -/
theorem shiftIn_div_mod (acc x w n k m : Nat) (hk : k ≤ m) (hm : m ≤ n + w) :
    (acc % 2 ^ n * 2 ^ w + x) / 2 ^ (m - k) % 2 ^ k = (acc * 2 ^ w + x) / 2 ^ (m - k) % 2 ^ k := by
  have key : (acc % 2 ^ n * 2 ^ w + x) % 2 ^ m = (acc * 2 ^ w + x) % 2 ^ m := by
    have hd : 2 ^ m ∣ 2 ^ n * 2 ^ w := by rw [← pow_add]; exact pow_dvd_pow 2 hm
    have e : acc * 2 ^ w + x = (acc % 2 ^ n * 2 ^ w + x) + 2 ^ n * 2 ^ w * (acc / 2 ^ n) := by
      conv_lhs => rw [← Nat.mod_add_div acc (2 ^ n)]
      ring
    obtain ⟨q, hq⟩ := hd
    rw [e, hq, Nat.mul_assoc, Nat.add_mul_mod_self_left]
  have split : 2 ^ m = 2 ^ (m - k) * 2 ^ k := by rw [← pow_add]; congr 1; omega
  have step : ∀ y : Nat, y / 2 ^ (m - k) % 2 ^ k = y % 2 ^ m / 2 ^ (m - k) := by
    intro y
    rw [split, Nat.mod_mul_right_div_self]
  rw [step, step, key]

/-- Keeping low bits: dropping higher bits first changes nothing. -/
theorem shiftIn_mod (acc x w n m : Nat) (hm : m ≤ n + w) :
    (acc % 2 ^ n * 2 ^ w + x) % 2 ^ m = (acc * 2 ^ w + x) % 2 ^ m := by
  have h := shiftIn_div_mod acc x w n m m (le_refl m) hm
  simpa using h

/-- The mask of a symbol is a remainder. -/
theorem and_sym_mask (x : Nat) : x &&& 31 = x % 32 := Nat.and_two_pow_sub_one_eq_mod x 5

/-- The mask of a byte is a remainder. -/
theorem and_byte_mask (x : Nat) : x &&& 255 = x % 256 := Nat.and_two_pow_sub_one_eq_mod x 8

/-- The inner loop of the reference for `n` buffered bits and a byte: one symbol. -/
theorem refDrain_oneSym (acc n : Nat) (h : n < 2) :
    refDrain (n + 8) acc (n + 8) =
      ([encRom (BitVec.ofNat 5 (acc / 2 ^ (n + 3) % 32))], n + 3) := by
  have h5 : n = 0 ∨ n = 1 := by omega
  rcases h5 with rfl | rfl <;>
    simp [refDrain, Nat.shiftRight_eq_div_pow, and_sym_mask]

/-- The inner loop of the reference for `n` buffered bits and a byte: two symbols. -/
theorem refDrain_twoSyms (acc n : Nat) (h : 2 ≤ n) (h4 : n ≤ 4) :
    refDrain (n + 8) acc (n + 8) =
      ([encRom (BitVec.ofNat 5 (acc / 2 ^ (n + 3) % 32)), encRom (BitVec.ofNat 5 (acc / 2 ^ (n - 2) % 32))],
        n - 2) := by
  have h5 : n = 2 ∨ n = 3 ∨ n = 4 := by omega
  rcases h5 with rfl | rfl | rfl <;>
    simp [refDrain, Nat.shiftRight_eq_div_pow, and_sym_mask]

/-- `ENC_PUSH` emits what one turn of the reference's outer loop appends, and keeps tracking it. -/
theorem encPush_tracks {s : State} {acc n : Nat} (h : EncTracks s acc n) (b : Byte) :
    let r := refDrain (n + 8) (acc <<< 8 ||| b.toNat) (n + 8)
    (encPushState b s).events = s.events ++ r.1.map OutEvent.encSym ∧
    EncTracks (encPushState b s) (acc <<< 8 ||| b.toNat) r.2 := by
  obtain ⟨hc, hle, ha⟩ := h
  intro r
  have ht : (encShiftIn s.encAcc b).toNat = acc % 2 ^ n * 2 ^ 8 + b.toNat := by
    rw [encShiftIn_toNat, ha]
  have hacc : acc <<< 8 ||| b.toNat = acc * 2 ^ 8 + b.toNat := shiftLeft_or_eq_add _ _ 8 b.isLt
  have sym : ∀ m, 5 ≤ m → m ≤ n + 8 → takeSym (encShiftIn s.encAcc b) m =
      BitVec.ofNat 5 ((acc * 2 ^ 8 + b.toNat) / 2 ^ (m - 5) % 32) := by
    intro m h5 hm
    rw [takeSym_eq_ofNat, ht]
    have := shiftIn_div_mod acc b.toNat 8 n 5 m h5 hm
    norm_num at this ⊢
    rw [this]
  have keep : ∀ m, m ≤ 4 → ((keepLow (encShiftIn s.encAcc b) m).setWidth 4).toNat =
      (acc * 2 ^ 8 + b.toNat) % 2 ^ m := by
    intro m hm
    rw [keepLow_setWidth_four _ _ hm, ht, shiftIn_mod acc b.toNat 8 n m (by omega), BitVec.toNat_ofNat]
    have h1 : (acc * 2 ^ 8 + b.toNat) % 2 ^ m < 2 ^ m := Nat.mod_lt _ (Nat.two_pow_pos m)
    have h2 : 2 ^ m ≤ 2 ^ 4 := Nat.pow_le_pow_right (by decide) hm
    exact Nat.mod_eq_of_lt (by omega)
  rcases Nat.lt_or_ge n 2 with h2 | h2
  · have hr : r = _ := refDrain_oneSym _ n h2
    rw [hr, encPushState_oneSym b (by omega), hc, hacc]
    refine ⟨?_, ⟨?_, by omega, ?_⟩⟩
    · simp [sym (n + 8) (by omega) (by omega)]
    · simp only [State.setEnc_encCnt, BitVec.toNat_ofNat]; omega
    · exact keep (n + 3) (by omega)
  · have hr : r = _ := refDrain_twoSyms _ n h2 hle
    rw [hr, encPushState_twoSyms b (by omega), hc, hacc]
    refine ⟨?_, ⟨?_, by omega, ?_⟩⟩
    · simp [sym (n + 8) (by omega) (by omega), sym (n + 3) (by omega) (by omega),
        show n + 3 - 5 = n - 2 by omega]
    · simp only [State.setEnc_encCnt, BitVec.toNat_ofNat]; omega
    · exact keep (n - 2) (by omega)

/-- `ENC_END` emits the reference's last symbol, if any, and the end marker. -/
theorem encEnd_tracks {s : State} {acc n : Nat} (h : EncTracks s acc n) :
    (encEndState s).events =
      s.events ++ (encodeRefFrom [] acc n).map OutEvent.encSym ++ [.encEnd] := by
  obtain ⟨hc, hle, ha⟩ := h
  rcases Nat.eq_zero_or_pos n with h0 | h0
  · rw [encEndState_boundary (by omega)]
    simp [encodeRefFrom, h0]
  · rw [encEndState_partial (by omega)]
    have hf : finalSym s.encAcc s.encCnt.toNat = BitVec.ofNat 5 (acc <<< (5 - n) &&& 31) := by
      apply BitVec.eq_of_toNat_eq
      rw [finalSym_toNat, ha, hc, BitVec.toNat_ofNat, Nat.shiftLeft_eq, and_sym_mask, Nat.mod_mod]
      have := shiftIn_mod acc 0 (5 - n) n 5 (by omega)
      simpa using this
    simp [encodeRefFrom, h0, hf]

/-- `DEC_PUSH` of a valid character emits what one turn of the reference's loop appends, and keeps tracking
it. -/
theorem decPush_tracks {s : State} {i acc n : Nat} (h : DecTracks s i acc n) {c : Byte}
    (hc : validChar c = true) :
    let acc1 := acc <<< 5 ||| (charValue c).toNat
    (n + 5 < 8 → (decPushState c s).events = s.events ∧
      DecTracks (decPushState c s) (i + 1) acc1 (n + 5)) ∧
    (8 ≤ n + 5 → (decPushState c s).events =
        s.events ++ [.decByte (BitVec.ofNat 8 (acc1 >>> (n + 5 - 8) &&& 0xFF))] ∧
      DecTracks (decPushState c s) (i + 1) acc1 (n + 5 - 8)) := by
  obtain ⟨he, hn, ha, hp⟩ := h
  intro acc1
  have hl := s.decCnt.isLt
  have ht : (decShiftIn s.decAcc (charValue c)).toNat = acc % 2 ^ n * 2 ^ 5 + (charValue c).toNat := by
    rw [decShiftIn_toNat, ha]
  have hacc : acc1 = acc * 2 ^ 5 + (charValue c).toNat :=
    shiftLeft_or_eq_add _ _ 5 (charValue c).isLt
  have keep : ∀ m, m ≤ 7 → m ≤ n + 5 →
      ((keepLow (decShiftIn s.decAcc (charValue c)) m).setWidth 7).toNat = acc1 % 2 ^ m := by
    intro m hm hm'
    rw [keepLow_setWidth_seven _ _ hm, ht, shiftIn_mod acc _ 5 n m hm', BitVec.toNat_ofNat, hacc]
    have h1 : (acc * 2 ^ 5 + (charValue c).toNat) % 2 ^ m < 2 ^ m := Nat.mod_lt _ (Nat.two_pow_pos m)
    have h2 : 2 ^ m ≤ 2 ^ 7 := Nat.pow_le_pow_right (by decide) hm
    exact Nat.mod_eq_of_lt (by omega)
  have hpos : s.nextPos = (i + 1) % 2 ^ s.params.posW := by
    rw [State.nextPos, hp, Nat.mod_add_mod]
  constructor
  · intro h8
    rw [decPushState_noByte c he hc (by omega), hn]
    refine ⟨rfl, he, ?_, keep (n + 5) (by omega) (by omega), hpos⟩
    simp only [State.setDec_decCnt, BitVec.toNat_ofNat]
    omega
  · intro h8
    rw [decPushState_byte c he hc (by omega), hn]
    refine ⟨?_, he, ?_, keep (n + 5 - 8) (by omega) (by omega), hpos⟩
    · have hb : takeByte (decShiftIn s.decAcc (charValue c)) (n + 5) =
          BitVec.ofNat 8 (acc1 >>> (n + 5 - 8) &&& 0xFF) := by
        rw [takeByte_eq_ofNat, ht, Nat.shiftRight_eq_div_pow, and_byte_mask, hacc]
        exact congrArg _ (shiftIn_div_mod acc (charValue c).toNat 5 n 8 (n + 5) h8 (le_refl _))
      simp [hb]
    · simp only [State.setDec_decCnt, BitVec.toNat_ofNat]
      omega

/-- The padding test sees exactly the reference's left-over bits. -/
theorem padFault_tracks {s : State} {i acc n : Nat} (h : DecTracks s i acc n) :
    s.padFault = true ↔ s.params.strictPad = true ∧ n > 0 ∧ acc &&& (2 ^ n - 1) ≠ 0 := by
  rw [padFault_iff, Nat.and_two_pow_sub_one_eq_mod, ← h.acc, h.cnt]
  simp [BitVec.toNat_eq]

end Sys2Proof.Machine
end

