-- ==== Sys2Proof/Laws/PerInstr.lean ====
section
/-! SUPPORT. Facts about every command as syntax, one lemma for each constructor. -/

/-- The fields of an encoded command are its row's `op` and its `data` (spec/30_encoding.md R80, R82). -/
def Sys2Proof.Laws.EncodeFields.Statement (i : Sys2Proof.Instr) : Prop :=
  Sys2Proof.opField (Sys2Proof.encode i) = i.opcode ∧ Sys2Proof.dataField (Sys2Proof.encode i) = i.data

namespace Sys2Proof.Laws.EncodeFields

/-- Joining two fields and taking them out again. -/
theorem fields_append (o : BitVec 3) (d : Byte) :
    opField (o ++ d : CmdWord) = o ∧ dataField (o ++ d : CmdWord) = d := by
  constructor
  · apply BitVec.eq_of_getLsbD_eq
    intro i hi
    simp only [opField, BitVec.getLsbD_extractLsb', BitVec.getLsbD_append]
    simp [hi]
  · apply BitVec.eq_of_getLsbD_eq
    intro i hi
    simp only [dataField, BitVec.getLsbD_extractLsb', BitVec.getLsbD_append]
    simp [hi]

theorem nop (d : Byte) : Statement (.nop d) := fields_append _ d
theorem encPush (b : Byte) : Statement (.encPush b) := fields_append _ b
theorem encEnd (d : Byte) : Statement (.encEnd d) := fields_append _ d
theorem encClr (d : Byte) : Statement (.encClr d) := fields_append _ d
theorem illegal100 (d : Byte) : Statement (.illegal100 d) := fields_append _ d
theorem decPush (c : Byte) : Statement (.decPush c) := fields_append _ c
theorem decEnd (d : Byte) : Statement (.decEnd d) := fields_append _ d
theorem decClr (d : Byte) : Statement (.decClr d) := fields_append _ d

end Sys2Proof.Laws.EncodeFields
end

