-- ==== Sys2Proof/Laws/Rom.lean ====
section
/-! SUPPORT. The tables have the shapes of spec/10_state.md R37, so that no default value of a lookup is
ever read (spec/20_memory.md R55). -/

namespace Sys2Proof.Machine

theorem encRomTable_length : encRomTable.length = 32 := by decide

theorem decRomGrid_length : decRomGrid.length = 16 := by decide

theorem decRomGrid_rows : ∀ row ∈ decRomGrid, row.length = 16 := by decide

/-- Every address reads an entry of `ENC_ROM`. -/
theorem encRom_mem (i : Sym) : encRom i ∈ encRomTable := by
  have h : i.toNat < encRomTable.length := by rw [encRomTable_length]; exact i.isLt
  rw [encRom, List.getD_eq_getElem _ _ h]
  exact List.getElem_mem h

/-- Every address reads an entry of a row of `DEC_ROM`. -/
theorem decRom_mem (c : Byte) : ∃ row ∈ decRomGrid, decRom c ∈ row := by
  have hc := c.isLt
  have h : c.toNat / 16 < decRomGrid.length := by rw [decRomGrid_length]; omega
  refine ⟨decRomGrid[c.toNat / 16], List.getElem_mem h, ?_⟩
  have h' : c.toNat % 16 < (decRomGrid[c.toNat / 16]).length := by
    rw [decRomGrid_rows _ (List.getElem_mem h)]
    omega
  rw [decRom, List.getD_eq_getElem _ _ h, List.getD_eq_getElem _ _ h']
  exact List.getElem_mem h'

end Sys2Proof.Machine
end

