-- ==== Sys2Proof/Tests/Slice0.lean ====
section
/-! SUPPORT. The model's own tests: ill-formed terms refused, words decoded, single steps with results from
spec/95_test_vectors.md (the id of the vector stands in each comment), and for every statement with
hypotheses a witness that meets them. -/

open Sys2Proof Sys2Proof.Machine

/-! ## Helpers -/

/-- The next state of an outcome. -/
def Slice0.next? : Host.Outcome State Fault Refusal → Option State
  | .next s => some s
  | .fault _ => none
  | .refused _ => none

/-- A strict instance of small `POS_W`, `PIPE` = 0. -/
def Slice0.strict : Params := { strictPad := true, posW := 4, pipe := false }

/-- A lenient instance with the output register stage. -/
def Slice0.lenient : Params := { strictPad := false, posW := 4, pipe := true }

/-- A state with the encoder registers as given, everything else 0 (the start states of section 2.2). -/
def Slice0.enc (cnt : BitVec 3) (acc : BitVec 4) : State :=
  { State.resetWith Slice0.strict with encCnt := cnt, encAcc := acc }

/-- A state with the decoder's data registers as given, everything else 0 (section 2.5). -/
def Slice0.dec (cnt : BitVec 3) (acc : BitVec 7) (pos : Nat) : State :=
  { State.resetWith Slice0.strict with decCnt := cnt, decAcc := acc, decPos := pos }

/-- A state in the error condition (section 2.5). -/
def Slice0.err (pos : Nat) (c : Byte) : State :=
  { State.resetWith Slice0.strict with decErr := true, decErrPos := pos, decErrChar := c }

open Slice0

/-! ## Well-formedness: each check refuses an ill-formed term -/

theorem test_wellFormed_posW_zero_refused :
    Params.wellFormed { strictPad := true, posW := 0, pipe := false } = false := by decide
theorem test_wellFormed_reference_accepted : Params.reference.wellFormed = true := by decide
theorem test_cmdWord_twelve_bits_refused : cmdWordWellFormed 0x800 = false := by decide
theorem test_cmdWord_largest_accepted : cmdWordWellFormed 0x7FF = true := by decide
theorem test_decodeNat_rejects_by_name : decodeNat 0x800 = .error .notElevenBits := by rfl
theorem test_decodeTableWord_refuses_high_bits : decodeTableWord 16 0x8100 = none := by decide

/-! ## Decoding: a word written out bit by bit for every constructor (R80, R82; P4, P10) -/

theorem test_decode_nop : decode 0b000_10101011 = .nop 0xAB := by decide
theorem test_decode_encPush : decode 0b001_11111111 = .encPush 0xFF := by decide
theorem test_decode_encEnd : decode 0b010_00000000 = .encEnd 0x00 := by decide
theorem test_decode_encClr : decode 0b011_10101010 = .encClr 0xAA := by decide
theorem test_decode_illegal100 : decode 0b100_11111111 = .illegal100 0xFF := by decide
theorem test_decode_decPush : decode 0b101_01011010 = .decPush 0x5A := by decide
theorem test_decode_decEnd : decode 0b110_11111111 = .decEnd 0xFF := by decide
theorem test_decode_decClr : decode 0b111_10101010 = .decClr 0xAA := by decide
theorem test_encode_decPush : encode (.decPush 0x5A) = 0x55A := by decide

/-! ## The tables (section 2.7) -/

theorem test_encRom_spots : encRom 9 = 0x39 ∧ encRom 18 = 0x4A ∧ encRom 27 = 0x56 ∧ encRom 31 = 0x5A := by
  decide
theorem test_decRom_spots : decRom 0x49 = 0b1_00001 ∧ decRom 0x6F = 0b1_00000 ∧ decRom 0x75 = 0b1_11011 ∧
    decRom 0x60 = 0 ∧ decRom 0x7B = 0 ∧ decRom 0xFF = 0 := by decide

/-! ## Single commands -/

/-- ES18: from count 3, two symbols. -/
theorem test_encPush_twoSyms :
    (next? (exec (.encPush 0xA5) (enc 3 0b0101))) =
      some { enc 1 0b0001 with events := [.encSym 0x50, .encSym 0x4A] } := by decide
/-- ES5: from count 1, one symbol. -/
theorem test_encPush_oneSym :
    (next? (exec (.encPush 0xFF) (enc 1 0b0000))) =
      some { enc 4 0b1111 with events := [.encSym 0x46] } := by decide
/-- EF9: the padding zeros are at the low end. -/
theorem test_encEnd_pads_low_end :
    (next? (exec (.encEnd 0xFF) (enc 4 0b0011))) =
      some { enc 0 0 with events := [.encSym 0x36, .encEnd] } := by decide
/-- EF1: on a group boundary only the end marker. -/
theorem test_encEnd_boundary :
    (next? (exec (.encEnd 0x00) (enc 0 0))) = some { enc 0 0 with events := [.encEnd] } := by decide
/-- R112's worked example. -/
theorem test_encClr : next? (exec (.encClr 0x00) (enc 3 0b0001)) = some (enc 0 0) := by decide
/-- DS23: a byte completed from count 7. -/
theorem test_decPush_byte :
    next? (exec (.decPush 0x5A) (dec 7 0b1111111 9)) =
      some { dec 4 0b0001111 10 with events := [.decByte 0xFF] } := by decide
/-- The invalid character of section 2.5. -/
theorem test_decPush_invalid :
    next? (exec (.decPush 0x2D) (dec 7 0b1111111 9)) =
      some { dec 7 0b1111111 9 with decErr := true, decErrPos := 9, decErrChar := 0x2D } := by decide
/-- DF7, strict. -/
theorem test_decEnd_nonzeroPad :
    next? (exec (.decEnd 0x00) (dec 7 0b1000000 3)) =
      some { dec 0 0 0 with events := [.decEnd .nonzeroPad 3 0x00] } := by decide
/-- DF12: in the error condition the left-over bits are not looked at. -/
theorem test_decEnd_error :
    next? (exec (.decEnd 0x00) { err 2 0x80 with decCnt := 2, decAcc := 0b0000011, decPos := 2 }) =
      some { dec 0 0 0 with events := [.decEnd .invalidChar 2 0x80] } := by decide
/-- R133's worked example, with an error latched beside it. -/
theorem test_decClr :
    next? (exec (.decClr 0x00) { err 1 0x21 with decCnt := 7, decAcc := 0b1111111 }) = some (dec 0 0 0) := by
  decide
/-- CT2. -/
theorem test_nop : next? (exec (.nop 0xAB) (dec 7 0b1111111 9)) = some (dec 7 0b1111111 9) := by decide
/-- CT3. -/
theorem test_illegal100 :
    next? (exec (.illegal100 0x00) (enc 3 0b0101)) = some { enc 3 0b0101 with illCmd := true } := by decide
/-- The wrap of `dec_pos` (R31, R245). -/
theorem test_decPush_pos_wraps :
    (next? (exec (.decPush 0x30) (dec 0 0 15))).map (fun s => s.decPos) = some 0 := by decide

/-! ## Clock cycles -/

/-- P1 step 1 through the word 0x101 on the port. -/
theorem test_step_runs_presented_word :
    (next? (step (State.reset.withFetchWord 16 0x101))).map (fun s => (s.encAcc, s.encCnt, s.ports)) =
      some (0b0001, 3, { OutPorts.idle with encValid := true, encN := 1, encSym0 := 0x30 }) := by decide
/-- CT6 and P11: a reset cycle beats the command on the port. -/
theorem test_reset_cycle :
    (next? (cycle { rst := true, cmdValid := true, cmd := 0x200 } { enc 3 0b0111 with illCmd := true })).map
      (fun s => (s.regs, s.events)) = some (Regs.zero, []) := by decide
/-- R241: with `PIPE` = 1 the event is on the ports one cycle later. -/
theorem test_pipe_delays_one_cycle :
    waveform [present 0x200, CycleIn.idle] (State.resetWith lenient) =
      [OutPorts.idle, { OutPorts.idle with encValid := true, encLast := true }] := by decide

/-! ## Messages -/

/-- T4 (C1): `encode([0xFF])` is "ZW". -/
theorem test_encodeHw_FF : encodeHw strict [0xFF] = [0x5A, 0x57] := by decide
/-- V7 on both instances. -/
theorem test_decodeHw_FS :
    decodeHw strict [0x46, 0x53] = some (.nonzeroPad 2) ∧ decodeHw lenient [0x46, 0x53] = some (.ok [0x7E]) := by
  decide
/-- X5: the first invalid character is reported. -/
theorem test_decodeHw_invalid :
    decodeHw strict [0x30, 0x34, 0x31, 0x30, 0x21, 0x36] = some (.invalidChar 4 0x21) := by decide
/-- R87: an operand in quotes and a comment. -/
theorem test_assemble_quoted : assembleLine "  DEC_PUSH ';' ; a comment".toList = some [.decPush 0x3B] := by decide
/-- R87: `; ` starts a comment, with a blank before it or none (log 14). -/
theorem test_assemble_comment_after_mnemonic :
    assembleLine "ENC_END; x".toList = some [.encEnd 0x00] ∧
    assembleLine "ENC_PUSH 0xFF; x".toList = some [.encPush 0xFF] ∧
    assembleLine "ENC_END;x".toList = none := by decide
/-- R88. -/
theorem test_assemble_decode :
    assembleLine ['D', 'E', 'C', 'O', 'D', 'E', ' ', quote, 'Z', 'w', quote] =
      some [.decPush 0x5A, .decPush 0x77, .decEnd 0x00] := by decide

/-! ## Witnesses: concrete values that meet the hypotheses of each statement together -/

theorem wit_EveryWordSelectsExactlyOneRow :
    (0x0FF : CmdWord) &&& 0x700 = 0x000 ∧ (0x100 : CmdWord) &&& 0x700 = 0x100 ∧
    (0x2FF : CmdWord) &&& 0x700 = 0x200 ∧ (0x300 : CmdWord) &&& 0x700 = 0x300 ∧
    (0x4FF : CmdWord) &&& 0x700 = 0x400 ∧ (0x500 : CmdWord) &&& 0x700 = 0x500 ∧
    (0x6FF : CmdWord) &&& 0x700 = 0x600 ∧ (0x700 : CmdWord) &&& 0x700 = 0x700 := by decide

theorem wit_IgnoredDataBitsHaveNoEffect :
    (0x200 : CmdWord).extractLsb' 8 3 = (0x2FF : CmdWord).extractLsb' 8 3 ∧
    (0x200 : CmdWord).extractLsb' 8 3 ≠ 0b001 ∧ (0x200 : CmdWord).extractLsb' 8 3 ≠ 0b101 := by decide

theorem wit_StepRunsThePresentedCommand :
    (Instr.encEnd 0x00).wellFormed = true ∧ decode (present 0x200).cmd = .encEnd 0x00 ∧
    (present 0x200).rst = false ∧ (present 0x200).cmdValid = true ∧
    ({ enc 4 0b0011 with inputs := [present 0x200] } : State).inputs = present 0x200 :: [] ∧
    ∃ t, exec (.encEnd 0x00) { enc 4 0b0011 with inputs := [], events := [] } = .next t :=
  ⟨rfl, by decide, rfl, rfl, rfl, _, rfl⟩

theorem wit_StepRunsTheFetchedWord :
    decodeTableWord 16 0x55A = some (.decPush 0x5A) ∧
    ∃ t, exec (.decPush 0x5A) { State.reset with events := [] } = .next t :=
  ⟨by decide, _, rfl⟩

theorem wit_ExhaustedScheduleIsIdle : State.reset.inputs = [] := rfl

theorem wit_reset_cycles_both_settings_of_PIPE :
    ({ rst := true, cmdValid := true, cmd := 0x200 } : CycleIn).rst = true ∧
    ({ rst := true, cmdValid := false, cmd := 0x000 } : CycleIn).rst = true ∧
    (State.resetWith strict).params.pipe = false ∧ (State.resetWith lenient).params.pipe = true := by decide

theorem wit_EncodedProgramRunsAsItsCommands :
    ({ State.reset with inputs := [present (encode (.encPush 0x01)), present (encode (.encEnd 0x00)),
        CycleIn.idle] } : State).inputs =
      [Instr.encPush 0x01, .encEnd 0x00].map (fun i => present (encode i)) ++ [CycleIn.idle] ∧
    State.reset.params.pipe = false := ⟨rfl, rfl⟩

theorem wit_StatusWiresShowTheErrorNextCycle :
    (dec 5 0b0011111 1).decErr = false ∧ validChar 0x21 = false := by decide

theorem wit_invariants_hold_and_a_step_follows :
    (State.reset.withFetchWord 16 0x1FF).Inv ∧
    (∃ t, step (State.reset.withFetchWord 16 0x1FF) = .next t) ∧
    (enc 4 0b1111).RegInv ∧ (dec 7 0b1111111 15).RegInv ∧ (dec 7 0b1111111 15).PosInv ∧
    (∃ t, exec (.encPush 0xFF) (enc 4 0b1111) = .next t) :=
  ⟨by decide, ⟨_, rfl⟩, by decide, by decide, by decide, _, rfl⟩

theorem wit_halves :
    (Instr.encPush 0x00).half = .encoder ∧ (Instr.encEnd 0x00).half = .encoder ∧
    (Instr.encClr 0x00).half = .encoder ∧ (Instr.decPush 0x00).half = .decoder ∧
    (Instr.decEnd 0x00).half = .decoder ∧ (Instr.decClr 0x00).half = .decoder ∧
    (enc 3 0b0101).SameEnc { dec 7 0b1111111 9 with encCnt := 3, encAcc := 0b0101 } ∧
    (dec 7 0b1111111 9).SameDec { dec 7 0b1111111 9 with encCnt := 3, encAcc := 0b0101 } ∧
    validChar 0x5A = true ∧ validChar 0x2D = false ∧ (err 2 0x80).decErr = true := by decide

theorem wit_encoder_counts :
    (enc 0 0b0000).RegInv ∧ (enc 1 0b0001).RegInv ∧ (enc 2 0b0011).RegInv ∧ (enc 3 0b0111).RegInv ∧
    (enc 4 0b1111).RegInv ∧ (enc 1 0).encCnt.toNat + 8 - 5 < 5 ∧ 5 ≤ (enc 2 0).encCnt.toNat + 8 - 5 ∧
    (enc 0 0).encCnt.toNat = 0 ∧ 0 < (enc 1 0).encCnt.toNat ∧ (enc 0 0).EncIdle := by decide

theorem wit_decoder_counts :
    (dec 0 0 0).RegInv ∧ (dec 1 1 0).RegInv ∧ (dec 2 3 0).RegInv ∧ (dec 3 7 0).RegInv ∧
    (dec 4 15 0).RegInv ∧ (dec 5 31 0).RegInv ∧ (dec 6 63 0).RegInv ∧ (dec 7 127 0).RegInv := by
  refine ⟨?_, ?_, ?_, ?_, ?_, ?_, ?_, ?_⟩ <;> decide

theorem wit_decoder_characters :
    (dec 7 127 0).decErr = false ∧ validChar 0x6C = true ∧ validChar 0x7F = false ∧
    (dec 2 0 0).decCnt.toNat + 5 < 8 ∧ 8 ≤ (dec 3 0 0).decCnt.toNat + 5 ∧ (dec 0 0 0).DecIdle ∧
    (∀ c ∈ ([0x30, 0x7A] : List Byte), validChar c = true) := by decide

theorem wit_decEnd_branches :
    (err 0 0x2D).decErr = true ∧
    ((dec 2 1 2).decErr = false ∧ (dec 2 1 2).params.strictPad = true ∧ 0 < (dec 2 1 2).decCnt.toNat ∧
      (dec 2 1 2).decAcc ≠ 0) ∧
    ((State.resetWith lenient).decErr = false ∧ (State.resetWith lenient).params.strictPad = false) ∧
    ((dec 0 0 8).decErr = false ∧ (dec 0 0 8).decCnt = 0) ∧
    ((dec 7 0 3).decErr = false ∧ (dec 7 0 3).decAcc = 0) := by decide

theorem wit_ErrorConditionLastsUntilEndOrClr :
    (err 1 0x21).decErr = true ∧
    ∀ i ∈ [Instr.decPush 0x34, .encPush 0xFF, .nop 0x00, .illegal100 0x00],
      (∀ x, i ≠ .decEnd x) ∧ (∀ x, i ≠ .decClr x) := by
  refine ⟨rfl, ?_⟩
  intro i hi
  simp only [List.mem_cons, List.not_mem_nil, or_false] at hi
  rcases hi with rfl | rfl | rfl | rfl <;> exact ⟨fun _ => by simp, fun _ => by simp⟩

theorem wit_table_hypotheses :
    encRom 10 = encRom 10 ∧ isUpper (encRom 10) = true ∧ isUpper (encRom 31) = true := by decide

theorem wit_InterleavedEncodeMessage :
    (dec 7 0b1111111 9).EncIdle ∧
    [Instr.encPush 0xFF, .decPush 0x5A, .nop 0x00, .illegal100 0x00, .encEnd 0x00, .decEnd 0x00].filter
      (fun i => decide (i.half = .encoder)) = [0xFF].map Instr.encPush ++ [.encEnd 0x00] := by decide

theorem wit_InterleavedDecodeMessage :
    (enc 3 0b0111).DecIdle ∧
    [Instr.encPush 0xFF, .decPush 0x5A, .nop 0x00, .illegal100 0x00, .decEnd 0x00].filter
      (fun i => decide (i.half = .decoder)) = [0x5A].map Instr.decPush ++ [.decEnd 0x00] := by decide

/-- V8, V12 (lenient), V21 and V4: accepted texts, of lengths that an encoder produces and that none does. -/
theorem wit_accepted_texts :
    decodeHw strict [0x30, 0x34, 0x31, 0x30, 0x36] = some (.ok [0x01, 0x02, 0x03]) ∧
    strict.strictPad = true ∧ [0x30, 0x34, 0x31, 0x30, 0x36].length % 8 ∈ [0, 2, 4, 5, 7] ∧
    decodeHw strict [0x30, 0x30, 0x30] = some (.ok [0x00]) ∧
    [0x30, 0x30, 0x30].length % 8 ∉ [0, 2, 4, 5, 7] ∧
    [0x30, 0x30, 0x30].length < 2 ^ strict.posW ∧
    (∀ c ∈ ([0x30, 0x34, 0x31, 0x30, 0x36] : List Byte), validChar c = true) := by decide

/-- T5: the document's two texts differ by aliases only. -/
theorem wit_DecodingIgnoresAliases :
    [0x4F, 0x31, 0x4C, 0x31, 0x55, 0x31].map substituteChar =
      [0x30, 0x31, 0x31, 0x31, 0x56, 0x31].map substituteChar := by decide

/-- X2: "AB-CD". -/
theorem wit_FirstInvalidCharacterIsReported :
    (∀ x ∈ ([0x41, 0x42] : List Byte), validChar x = true) ∧ validChar 0x2D = false := by decide

/-- V4, V33, X1: a strict instance giving each kind of verdict. -/
theorem wit_StrictAndLenient :
    decodeHw strict [0x5A, 0x57] = some (.ok [0xFF]) ∧
    decodeHw strict [0x5A, 0x5A] = some (.nonzeroPad 2) ∧
    decodeHw strict [0x21, 0x21, 0x21] = some (.invalidChar 0 0x21) := by decide

/-- Injectivity and prefixes are about inputs that exist (E4). -/
theorem wit_OutputsSoFarAreAPrefix :
    encodeHw strict [0xFF] = encodeHw strict [0xFF] ∧
    decodeHw strict ([0x5A] ++ [0x57]) = some (.ok [0xFF]) := by decide
end

section
/-! The scope of the core (spec/00_scope.md): every command sequence runs, no step stops, and a used-up
schedule of the host is an idle cycle. -/

namespace Sys2Proof.Machine

@[simp] theorem State.beginStep_regs (s : State) : s.beginStep.regs = s.regs := rfl

@[simp] theorem latchOutputs_regs (s t : State) : (latchOutputs s t).regs = t.regs := rfl

/-- R8 with log 3: a step with nothing left in the host's schedule only begins a step and latches the
outputs. -/
theorem step_of_inputs_nil {s : State} (h : s.inputs = []) :
    step s = .next (latchOutputs s s.beginStep) := by
  simp only [step, h]
  exact cycle_of_idle s rfl rfl

/-- R230: a step takes the head of the host's schedule as its input cycle. -/
theorem step_of_inputs_cons {s : State} {c : CycleIn} {rest : List CycleIn} (h : s.inputs = c :: rest) :
    step s = cycle c { s with inputs := rest } := by
  simp only [step, h]

/-- R9: the step never gets stuck, whatever the host drives. -/
theorem exists_step_eq_next (s : State) : ∃ t, step s = .next t := by
  cases h : s.inputs with
  | nil => exact ⟨_, step_of_inputs_nil h⟩
  | cons c rest =>
    obtain ⟨t, ht, -⟩ := cycle_cases c { s with inputs := rest }
    exact ⟨_, (step_of_inputs_cons h).trans ht⟩

/-- Settles O10: a command sequence leaves the state `afterAll` names, by induction over the sequence, and
a step leaves the state of its input cycle. -/
theorem nothingEverStopsTheCore : Obligations.NothingEverStopsTheCore :=
  ⟨fun is s => ⟨afterAll is s, run_eq_afterAll is s⟩, exists_step_eq_next⟩

/-- Settles O9: the idle cycle's next state is the old one with the event list emptied and the outputs
latched, which is no change of a register. -/
theorem exhaustedScheduleIsIdle : Obligations.ExhaustedScheduleIsIdle := by
  intro s hs
  exact ⟨_, step_of_inputs_nil hs, by simp, by simp, by simp [hs], by simp⟩

end Sys2Proof.Machine
end

section
/-! What every command writes and reads, one equation for each half (spec/10_state.md R25): a command
changes its own half's registers and appends events, and both are fixed by what it may read. -/

namespace Sys2Proof.Machine

variable {i : Instr} {s s' : State}

/-- An encoder command started in `s'` writes the encoder registers, and appends the events, that it does
in any state `s` with the same encoder registers, and nothing else. -/
theorem after_of_half_encoder (h : i.half = .encoder) (hs : s.SameEnc s') :
    after i s' =
      { s' with
        encAcc := (after i s).encAcc
        encCnt := (after i s).encCnt
        events := s'.events ++ (after i s.beginStep).events } := by
  obtain ⟨hacc, hcnt⟩ := hs
  cases i with
  | encPush b =>
    rcases Nat.lt_or_ge s.encCnt.toNat 2 with hn | hn
    · simp only [after, encPushState_oneSym b hn, encPushState_oneSym (s := s') b (hcnt ▸ hn),
        encPushState_oneSym (s := s.beginStep) b hn, hacc, hcnt]
      rfl
    · simp only [after, encPushState_twoSyms b hn, encPushState_twoSyms (s := s') b (hcnt ▸ hn),
        encPushState_twoSyms (s := s.beginStep) b hn, hacc, hcnt]
      simp [State.emit, State.setEnc]
  | encEnd d =>
    rcases Nat.eq_zero_or_pos s.encCnt.toNat with hn | hn
    · simp only [after, encEndState_boundary hn, encEndState_boundary (s := s') (hcnt ▸ hn),
        encEndState_boundary (s := s.beginStep) hn]
      rfl
    · simp only [after, encEndState_partial hn, encEndState_partial (s := s') (hcnt ▸ hn),
        encEndState_partial (s := s.beginStep) hn, hacc, hcnt]
      simp [State.emit, State.clearEnc, State.setEnc]
  | encClr d => simp [after, State.clearEnc, State.setEnc]
  | nop d => cases h
  | illegal100 d => cases h
  | decPush c => cases h
  | decEnd d => cases h
  | decClr d => cases h

/-- A decoder command started in `s'` writes the decoder registers, and appends the events, that it does
in any state `s` with the same decoder registers and parameters, and nothing else. -/
theorem after_of_half_decoder (h : i.half = .decoder) (hs : s.SameDec s') (hp : s'.params = s.params) :
    after i s' =
      { s' with
        decAcc := (after i s).decAcc
        decCnt := (after i s).decCnt
        decPos := (after i s).decPos
        decErr := (after i s).decErr
        decErrPos := (after i s).decErrPos
        decErrChar := (after i s).decErrChar
        events := s'.events ++ (after i s.beginStep).events } := by
  obtain ⟨hacc, hcnt, hpos, herr, herrPos, herrChar⟩ := hs
  have hnext : s'.nextPos = s.nextPos := by rw [State.nextPos, State.nextPos, hpos, hp]
  have hpad : s'.padFault = s.padFault := by rw [State.padFault, State.padFault, hp, hcnt, hacc]
  cases i with
  | decPush c =>
    rcases decPushState_cases c s with ⟨he, e⟩ | ⟨he, hc, e⟩ | ⟨he, hc, hn, e⟩ | ⟨he, hc, hn, e⟩
    · simp [after, e, decPushState_ignored (s := s') c (herr.trans he),
        decPushState_ignored (s := s.beginStep) c he, ← hacc, ← hcnt, ← hpos, ← herr, ← herrPos, ← herrChar]
    · simp only [after, e, decPushState_invalid (s := s') c (herr.trans he) hc,
        decPushState_invalid (s := s.beginStep) c he hc]
      simp [State.latchErr, ← hacc, ← hcnt, ← hpos]
    · simp only [after, e, decPushState_noByte (s := s') c (herr.trans he) hc (hcnt ▸ hn),
        decPushState_noByte (s := s.beginStep) c he hc hn, hacc, hcnt, hnext]
      simp [State.setDec, ← herr, ← herrPos, ← herrChar]
    · simp only [after, e, decPushState_byte (s := s') c (herr.trans he) hc (hcnt ▸ hn),
        decPushState_byte (s := s.beginStep) c he hc hn, hacc, hcnt, hnext]
      simp [State.emit, State.setDec, ← herr, ← herrPos, ← herrChar]
  | decEnd d =>
    cases he : s.decErr with
    | true =>
      simp only [after, decVerdict_error he, decVerdict_error (s := s') (herr.trans he),
        decVerdict_error (s := s.beginStep) he, herrPos, herrChar]
      rfl
    | false =>
      cases hf : s.padFault with
      | true =>
        simp only [after, decVerdict_pad he hf, decVerdict_pad (s := s') (herr.trans he) (hpad.trans hf),
          decVerdict_pad (s := s.beginStep) he hf, hpos]
        rfl
      | false =>
        simp only [after, decVerdict_ok he hf, decVerdict_ok (s := s') (herr.trans he) (hpad.trans hf),
          decVerdict_ok (s := s.beginStep) he hf, hpos]
        rfl
  | decClr d => simp [after, State.clearDec, State.setDec, State.clearErr]
  | nop d => cases h
  | encPush b => cases h
  | encEnd d => cases h
  | encClr d => cases h
  | illegal100 d => cases h

/-- R25, the encoder rows: no register of the decoder and no flag is written. -/
theorem after_encoder_frame (h : i.half = .encoder) (s : State) :
    s.SameDec (after i s) ∧ (after i s).illCmd = s.illCmd := by
  rw [after_of_half_encoder h (s := s) ⟨rfl, rfl⟩]
  exact ⟨⟨rfl, rfl, rfl, rfl, rfl, rfl⟩, rfl⟩

/-- R25, the decoder rows: no register of the encoder is written, nor `ill_cmd`. -/
theorem after_decoder_frame (h : i.half = .decoder) (s : State) :
    s.SameEnc (after i s) ∧ (after i s).illCmd = s.illCmd := by
  rw [after_of_half_decoder h (s := s) ⟨rfl, rfl, rfl, rfl, rfl, rfl⟩ rfl]
  exact ⟨⟨rfl, rfl⟩, rfl⟩

/-- Settles O25: the frame of the encoder half, with what no command of either half writes. -/
theorem encoderCommandsLeaveTheRest : Obligations.EncoderCommandsLeaveTheRest := by
  intro i s h
  obtain ⟨hdec, hill⟩ := after_encoder_frame h s
  exact ⟨after i s, _, exec_eq_after i s, hdec, hill, after_environment i s, after_events i s⟩

/-- Settles O26: the frame of the decoder half, and the cases of `DEC_PUSH` for its three rows of R25. -/
theorem decoderCommandsLeaveTheRest : Obligations.DecoderCommandsLeaveTheRest := by
  constructor
  · intro i s h
    obtain ⟨henc, hill⟩ := after_decoder_frame h s
    exact ⟨after i s, _, exec_eq_after i s, henc, hill, after_environment i s, after_events i s⟩
  · intro c s
    refine ⟨decPushState c s, rfl, ?_⟩
    rcases decPushState_cases c s with ⟨he, e⟩ | ⟨he, hc, e⟩ | ⟨he, hc, _, e⟩ | ⟨he, hc, _, e⟩ <;> rw [e]
    · exact ⟨fun _ => ⟨rfl, rfl, rfl⟩, fun _ => ⟨rfl, rfl, rfl, rfl⟩, fun _ => rfl⟩
    · simp [he, hc]
    · simp [he, hc]
    · simp [he, hc]

/-- Settles O27: both states' commands leave what the equation of the half names from the first state. -/
theorem halvesCannotObserveEachOther : Obligations.HalvesCannotObserveEachOther := by
  constructor
  · intro i s s' h hs
    refine ⟨after i s, after i s', (after i s.beginStep).events, exec_eq_after i s, exec_eq_after i s',
      ?_, after_events i s, ?_⟩ <;> rw [after_of_half_encoder h hs]
    exact ⟨rfl, rfl⟩
  · intro i s s' h hs hp
    refine ⟨after i s, after i s', (after i s.beginStep).events, exec_eq_after i s, exec_eq_after i s',
      ?_, after_events i s, ?_⟩ <;> rw [after_of_half_decoder h hs hp]
    exact ⟨rfl, rfl, rfl, rfl, rfl, rfl⟩

end Sys2Proof.Machine
end

section
/-! The invariants of spec/10_state.md: R27 for the registers, R20 for the positions, R36 for the output
registers. The first two read registers and parameters alone, so a step needs only what it does to those. -/

namespace Sys2Proof.Machine

/-! ### What a step does to the registers -/

/-- The registers after a step are those of reset or those some command leaves; an idle cycle is a `NOP`
(R164). The parameters stay (R34). -/
theorem step_regs_cases {s t : State} (h : step s = .next t) :
    t.params = s.params ∧ (t.regs = Regs.zero ∨ ∃ i, t.regs = (after i s).regs) := by
  obtain ⟨c, rest, u, rfl, ⟨-, rfl⟩ | ⟨-, -, rfl⟩ | ⟨-, -, rfl⟩⟩ := step_cases h
  · exact ⟨rfl, .inl rfl⟩
  · refine ⟨by simp, .inr ⟨decode c.cmd, ?_⟩⟩
    rw [latchOutputs_regs]
    exact (after_regs_congr (s := ({ s with inputs := rest } : State).beginStep) (s' := s) _ rfl rfl).1
  · exact ⟨rfl, .inr ⟨.nop 0x00, rfl⟩⟩

/-- Settles O23: the parameters' part of what a step does. -/
theorem noStepChangesTheParameters : Obligations.NoStepChangesTheParameters :=
  fun _ _ h => (step_regs_cases h).1

/-! ### The state invariant of R27 -/

theorem State.regInv_congr {s t : State} (h : s.regs = t.regs) : s.RegInv ↔ t.RegInv := by
  simp only [State.regs, Regs.mk.injEq] at h
  simp only [State.RegInv, h]

theorem State.regInv_of_regs_eq_zero {s : State} (h : s.regs = Regs.zero) : s.RegInv :=
  (State.regInv_congr (t := State.reset) h).mpr (by decide)

/-- The bits a command keeps are as few as the count it writes beside them. -/
theorem keepLow_setWidth_toNat_lt (t : Tmp) (w : Nat) {n : Nat} (h : n ≤ 12) :
    ((keepLow t n).setWidth w).toNat < 2 ^ n := by
  rw [BitVec.toNat_setWidth, keepLow_toNat t n h]
  exact (Nat.mod_le _ _).trans_lt (Nat.mod_lt _ (Nat.two_pow_pos n))

section
variable {s : State} (h : s.RegInv)
include h

theorem State.RegInv.emit (e : OutEvent) : (s.emit e).RegInv := h

theorem State.RegInv.setEnc_keepLow (t : Tmp) {n : Nat} (hn : n ≤ 4) :
    (s.setEnc ((keepLow t n).setWidth 4) (BitVec.ofNat 3 n)).RegInv := by
  obtain ⟨-, -, hdec, herr⟩ := h
  have hcnt : (BitVec.ofNat 3 n).toNat = n := by rw [BitVec.toNat_ofNat]; omega
  exact ⟨hcnt.trans_le hn, hcnt.symm ▸ keepLow_setWidth_toNat_lt t 4 (by omega), hdec, herr⟩

theorem State.RegInv.setDec_keepLow (t : Tmp) {n : Nat} (hn : n ≤ 7) (pos : Nat) :
    (s.setDec ((keepLow t n).setWidth 7) (BitVec.ofNat 3 n) pos).RegInv := by
  obtain ⟨hle, henc, -, herr⟩ := h
  have hcnt : (BitVec.ofNat 3 n).toNat = n := by rw [BitVec.toNat_ofNat]; omega
  exact ⟨hle, henc, hcnt.symm ▸ keepLow_setWidth_toNat_lt t 7 (by omega), herr⟩

theorem State.RegInv.clearEnc : s.clearEnc.RegInv := by
  obtain ⟨-, -, hdec, herr⟩ := h
  exact ⟨by simp, by simp, hdec, herr⟩

theorem State.RegInv.latchErr (pos : Nat) (c : Byte) : (s.latchErr pos c).RegInv := by
  obtain ⟨hle, henc, hdec, -⟩ := h
  exact ⟨hle, henc, hdec, by simp⟩

theorem State.RegInv.clearDec : s.clearDec.RegInv := by
  obtain ⟨hle, henc, -, -⟩ := h
  exact ⟨hle, henc, by simp, fun _ => ⟨rfl, rfl⟩⟩

/-- R27 for the commands: each keeps the invariant. -/
theorem State.RegInv.after (i : Instr) : (after i s).RegInv := by
  have hle : s.encCnt.toNat ≤ 4 := h.1
  cases i with
  | nop d => exact h
  | encPush b =>
    rcases Nat.lt_or_ge s.encCnt.toNat 2 with hn | hn
    · rw [Machine.after, encPushState_oneSym b hn]
      exact (h.emit _).setEnc_keepLow _ (by omega)
    · rw [Machine.after, encPushState_twoSyms b hn]
      exact ((h.emit _).emit _).setEnc_keepLow _ (by omega)
  | encEnd d =>
    rcases Nat.eq_zero_or_pos s.encCnt.toNat with hn | hn
    · rw [Machine.after, encEndState_boundary hn]
      exact (h.emit _).clearEnc
    · rw [Machine.after, encEndState_partial hn]
      exact ((h.emit _).emit _).clearEnc
  | encClr d => exact h.clearEnc
  | illegal100 d => exact h
  | decPush c =>
    have hlt := s.decCnt.isLt
    rw [Machine.after]
    rcases decPushState_cases c s with ⟨-, e⟩ | ⟨-, -, e⟩ | ⟨-, -, hn, e⟩ | ⟨-, -, hn, e⟩ <;> rw [e]
    · exact h
    · exact h.latchErr _ _
    · exact h.setDec_keepLow _ (by omega) _
    · exact (h.emit _).setDec_keepLow _ (by omega) _
  | decEnd d =>
    obtain ⟨st, pos, c, e⟩ := decVerdict_emits s
    rw [Machine.after, e]
    exact (h.emit _).clearDec
  | decClr d => exact h.clearDec

end

/-- Settles O21: reset's registers meet R27, every command keeps it, and a step does to the registers what
reset or a command does. -/
theorem everyStepKeepsTheStateInvariant : Obligations.EveryStepKeepsTheStateInvariant := by
  refine ⟨fun p => State.regInv_of_regs_eq_zero rfl, ?_, ?_⟩
  · intro s t hs h
    obtain ⟨-, hzero | ⟨i, hi⟩⟩ := step_regs_cases h
    · exact State.regInv_of_regs_eq_zero hzero
    · exact (State.regInv_congr hi).mpr (hs.after i)
  · intro i s t hs h
    rw [exec_next h]
    exact hs.after i

/-! ### The ranges of the positions and the output registers -/

theorem State.posInv_congr {s t : State} (hr : s.regs = t.regs) (hp : s.params = t.params) :
    s.PosInv ↔ t.PosInv := by
  simp only [State.regs, Regs.mk.injEq] at hr
  simp only [State.PosInv, hr, hp]

theorem State.posInv_of_regs_eq_zero {s : State} (h : s.regs = Regs.zero) : s.PosInv :=
  (State.posInv_congr (t := State.resetWith s.params) h rfl).mpr
    ⟨Nat.two_pow_pos _, Nat.two_pow_pos _⟩

theorem State.nextPos_lt (s : State) : s.nextPos < 2 ^ s.params.posW := Nat.mod_lt _ (Nat.two_pow_pos _)

/-- Every command keeps the positions in `POS_W` bits: the encoder and control commands do not write
them. -/
theorem State.PosInv.after {s : State} (h : s.PosInv) (i : Instr) : (after i s).PosInv := by
  obtain ⟨hpos, herrPos⟩ := h
  have hzero : (0 : Nat) < 2 ^ s.params.posW := Nat.two_pow_pos _
  have henc (hi : i.half = .encoder) : (Machine.after i s).PosInv := by
    obtain ⟨⟨-, -, hp, -, he, -⟩, -⟩ := after_encoder_frame hi s
    exact ⟨by rwa [hp, after_params], by rwa [he, after_params]⟩
  cases i with
  | nop d => exact ⟨hpos, herrPos⟩
  | encPush b => exact henc rfl
  | encEnd d => exact henc rfl
  | encClr d => exact henc rfl
  | illegal100 d => exact ⟨hpos, herrPos⟩
  | decPush c =>
    rw [Machine.after]
    rcases decPushState_cases c s with ⟨-, e⟩ | ⟨-, -, e⟩ | ⟨-, -, -, e⟩ | ⟨-, -, -, e⟩ <;> rw [e]
    · exact ⟨hpos, herrPos⟩
    · exact ⟨hpos, hpos⟩
    · exact ⟨s.nextPos_lt, herrPos⟩
    · exact ⟨s.nextPos_lt, herrPos⟩
  | decEnd d =>
    obtain ⟨st, pos, c, e⟩ := decVerdict_emits s
    rw [Machine.after, e]
    exact ⟨hzero, hzero⟩
  | decClr d => exact ⟨hzero, hzero⟩

/-- R36: latching the outputs is what makes the output registers hold the step's event list. -/
theorem latchOutputs_outInv (s t : State) : (latchOutputs s t).OutInv := rfl

theorem step_outInv {s t : State} (h : step s = .next t) : t.OutInv := by
  obtain ⟨c, rest, u, rfl, -⟩ := step_cases h
  exact latchOutputs_outInv _ _

/-- Settles O22: reset and every command keep the ranges, and every cycle ends by latching the outputs. -/
theorem everyStepKeepsRangesAndOutputRegisters : Obligations.EveryStepKeepsRangesAndOutputRegisters := by
  intro s t h
  refine ⟨fun hs => ?_, step_outInv h⟩
  obtain ⟨hp, hzero | ⟨i, hi⟩⟩ := step_regs_cases h
  · exact State.posInv_of_regs_eq_zero hzero
  · exact (State.posInv_congr hi (by rw [hp, after_params])).mpr (hs.after i)

/-! ### The reset state -/

/-- Settles O19: the reset state's fields are those of R35 and R36 by definition. -/
theorem resetLeavesEveryRegisterZero : Obligations.ResetLeavesEveryRegisterZero :=
  fun _ => ⟨rfl, rfl, rfl, rfl⟩

/-- No event is latched at reset, for either setting of `PIPE` (R36). -/
theorem State.resetWith_outInv (p : Params) : (State.resetWith p).OutInv :=
  (ite_self _).symm

theorem State.resetWith_inv (p : Params) : (State.resetWith p).Inv :=
  ⟨State.regInv_of_regs_eq_zero rfl, State.posInv_of_regs_eq_zero rfl, State.resetWith_outInv p⟩

/-- Settles O20: the three invariants at reset; `State.reset` is that of the reference parameters. -/
theorem resetMeetsTheInvariant : Obligations.ResetMeetsTheInvariant :=
  ⟨State.resetWith_inv, State.resetWith_inv Params.reference⟩

end Sys2Proof.Machine
end

section
/-! The fields of a decoded word (spec/30_encoding.md R80, R82), the two flags cycle by cycle
(spec/10_state.md R32), and the word a host places for the next cycle. -/

namespace Sys2Proof.Machine

/-- R82: the row that three opcode bits select has these bits as its `op`. -/
theorem opcode_decodeOp (a b c : Bool) (d : Byte) :
    (decodeOp a b c d).opcode = BitVec.ofBool a ++ BitVec.ofBool b ++ BitVec.ofBool c := by
  cases a <;> cases b <;> cases c <;> rfl

@[simp] theorem data_decodeOp (a b c : Bool) (d : Byte) : (decodeOp a b c d).data = d := by
  cases a <;> cases b <;> cases c <;> rfl

theorem ofBool_getLsbD_append_three (o : BitVec 3) :
    BitVec.ofBool (o.getLsbD 2) ++ BitVec.ofBool (o.getLsbD 1) ++ BitVec.ofBool (o.getLsbD 0) = o := by
  revert o
  decide

/-- R80: the command of a word is of the row that the field `op` names. -/
theorem opcode_decode (w : CmdWord) : (decode w).opcode = w.extractLsb' 8 3 := by
  rw [decode, opcode_decodeOp, ofBool_getLsbD_append_three, opField]

/-- R80, R81: the command of a word carries the field `data`. -/
theorem data_decode (w : CmdWord) : (decode w).data = w.extractLsb' 0 8 := data_decodeOp _ _ _ _

/-! ### The flags -/

/-- R32: the reserved opcode alone sets `ill_cmd`, and no command clears it. -/
theorem after_illCmd_iff (i : Instr) (s : State) :
    (after i s).illCmd = true ↔ s.illCmd = true ∨ i.opcode = 0b100 := by
  have henc (h : i.half = .encoder) := (after_encoder_frame h s).2
  have hdec (h : i.half = .decoder) := (after_decoder_frame h s).2
  cases i with
  | nop d => simp [after, Instr.opcode]
  | encPush b => simp [henc rfl, Instr.opcode]
  | encEnd d => simp [henc rfl, Instr.opcode]
  | encClr d => simp [henc rfl, Instr.opcode]
  | illegal100 d => simp [after, Instr.opcode]
  | decPush c => simp [hdec rfl, Instr.opcode]
  | decEnd d => simp [hdec rfl, Instr.opcode]
  | decClr d => simp [hdec rfl, Instr.opcode]

/-- R32: `DEC_END` and `DEC_CLR` alone clear `dec_err`, and `DEC_PUSH` of an invalid character alone sets
it. -/
theorem after_decErr_iff (i : Instr) (s : State) :
    (after i s).decErr = true ↔
      (s.decErr = true ∧ ¬ (i.opcode = 0b110 ∨ i.opcode = 0b111)) ∨
      (s.decErr = false ∧ i.opcode = 0b101 ∧ validChar i.data = false) := by
  have henc (h : i.half = .encoder) : (after i s).decErr = s.decErr := by
    obtain ⟨⟨-, -, -, he, -, -⟩, -⟩ := after_encoder_frame h s
    exact he
  cases i with
  | nop d => simp [after, Instr.opcode]
  | encPush b => simp [henc rfl, Instr.opcode]
  | encEnd d => simp [henc rfl, Instr.opcode]
  | encClr d => simp [henc rfl, Instr.opcode]
  | illegal100 d => simp [after, Instr.opcode]
  | decPush c =>
    rw [after]
    rcases decPushState_cases c s with ⟨he, e⟩ | ⟨he, hc, e⟩ | ⟨he, hc, -, e⟩ | ⟨he, hc, -, e⟩ <;> rw [e]
    · simp [he, Instr.opcode]
    · simp [he, hc, Instr.opcode, Instr.data]
    · simp [he, hc, Instr.opcode, Instr.data]
    · simp [he, hc, Instr.opcode, Instr.data]
  | decEnd d => simp [after, Instr.opcode]
  | decClr d => simp [after, Instr.opcode]

/-- Settles O24: reset clears both flags, a command does what its row does to them, and a cycle without one
keeps them. -/
theorem flagsAreSetAndClearedAsListed : Obligations.FlagsAreSetAndClearedAsListed := by
  intro c s
  obtain ⟨t, ht, ⟨hr, rfl⟩ | ⟨hr, hv, rfl⟩ | ⟨hr, hv, rfl⟩⟩ := cycle_cases c s
  · exact ⟨_, ht, by simp [hr], by simp [hr]⟩
  · refine ⟨_, ht, ?_, ?_⟩
    · simp [hr, hv, after_illCmd_iff, opcode_decode]
    · simp [hr, hv, after_decErr_iff, opcode_decode, data_decode]
  · exact ⟨_, ht, by simp [hr, hv], by simp [hr, hv]⟩

/-! ### The word placed for the next cycle -/

/-- R83, R92: a number read as a command is an 11-bit word that decodes to it. -/
theorem decodeTableWord_eq_some {nbits w : Nat} {i : Instr} (h : decodeTableWord nbits w = some i) :
    cmdWordWellFormed (w % 2 ^ nbits) = true ∧ decode (BitVec.ofNat 11 (w % 2 ^ nbits)) = i := by
  cases hw : cmdWordWellFormed (w % 2 ^ nbits) with
  | true => simpa [decodeTableWord, decodeNat, hw] using h
  | false => simp [decodeTableWord, decodeNat, hw] at h

/-- The step after `withFetchWord` is the cycle that presents the word, with the schedule as it was. -/
theorem step_withFetchWord (s : State) (nbits w : Nat) :
    step (s.withFetchWord nbits w) =
      cycle { rst := false, cmdValid := cmdWordWellFormed (w % 2 ^ nbits),
              cmd := BitVec.ofNat 11 (w % 2 ^ nbits) } s := rfl

/-- Settles O7: the step is the command's cycle, and the command leaves the parameters that choose the
output stage as they are. -/
theorem stepRunsTheFetchedWord : Obligations.StepRunsTheFetchedWord := by
  intro s t i nbits w hi ht
  obtain ⟨hwf, hdec⟩ := decodeTableWord_eq_some hi
  have hafter : t = after i s.beginStep := exec_next ht
  have hparams : t.params = s.params := by rw [hafter, after_params, State.beginStep_params]
  rw [step_withFetchWord, cycle_of_cmd s rfl hwf, hdec, ← hafter, latchOutputs, hparams]

end Sys2Proof.Machine
end

section
/-! A program on the command port (spec/00_scope.md R67): the words a host presents, one a cycle, run as
the commands they encode. The clock empties `events` and writes the output registers in every cycle, so the
clocked machine and `run` are compared by registers and parameters. -/

namespace Sys2Proof.Machine

/-! ### Decoding what was encoded -/

/-- R80, R82: an encoded command has its row's `op` and its own `data`. -/
theorem fields_encode (i : Instr) : Laws.EncodeFields.Statement i := by
  cases i with
  | nop d => exact Laws.EncodeFields.nop d
  | encPush b => exact Laws.EncodeFields.encPush b
  | encEnd d => exact Laws.EncodeFields.encEnd d
  | encClr d => exact Laws.EncodeFields.encClr d
  | illegal100 d => exact Laws.EncodeFields.illegal100 d
  | decPush c => exact Laws.EncodeFields.decPush c
  | decEnd d => exact Laws.EncodeFields.decEnd d
  | decClr d => exact Laws.EncodeFields.decClr d

/-- R82: the three bits of a row's `op` select that row. -/
theorem decodeOp_opcode (i : Instr) :
    decodeOp (i.opcode.getLsbD 2) (i.opcode.getLsbD 1) (i.opcode.getLsbD 0) i.data = i := by
  cases i <;> simp [Instr.opcode, decodeOp, Instr.data]

@[simp] theorem decode_encode (i : Instr) : decode (encode i) = i := by
  obtain ⟨hop, hdata⟩ := fields_encode i
  rw [decode, hop, hdata, decodeOp_opcode]

/-! ### The event lists of a command sequence -/

/-- The event list of each step of a command sequence, the first step's first. -/
def stepEvents : List Instr → State → List (List OutEvent)
  | [], _ => []
  | i :: is, s => (after i s.beginStep).events :: stepEvents is (after i s)

/-- A run gathers the event lists of its steps, in program order. -/
theorem afterAll_events (is : List Instr) (s : State) :
    (afterAll is s).events = s.events ++ (stepEvents is s).flatten := by
  induction is generalizing s with
  | nil => simp [stepEvents]
  | cons i is ih => rw [afterAll_cons, ih, after_events, stepEvents, List.flatten_cons, List.append_assoc]

/-- A command's event list is fixed by the registers and the parameters. -/
theorem after_beginStep_events_congr (i : Instr) {s s' : State} (hr : s.regs = s'.regs)
    (hp : s.params = s'.params) :
    (after i s.beginStep).events = (after i s'.beginStep).events := by
  obtain ⟨-, es, h, h'⟩ := after_regs_congr i (s := s.beginStep) (s' := s'.beginStep) hr hp
  rw [h, h', State.beginStep_events, State.beginStep_events]

/-! ### One command presented on the port -/

/-- R230: the cycle that presents an encoded command executes that command. -/
theorem cycle_present_encode (i : Instr) (s : State) :
    cycle (present (encode i)) s = .next (latchOutputs s (after i s.beginStep)) := by
  rw [cycle_of_cmd s rfl rfl]
  simp [present]

/-- The step whose cycle presents an encoded command executes it and goes on in the host's schedule. -/
theorem step_present_encode {i : Instr} {s : State} {rest : List CycleIn}
    (h : s.inputs = present (encode i) :: rest) :
    ∃ t, step s = .next t ∧ t.regs = (after i s).regs ∧ t.params = s.params ∧ t.inputs = rest := by
  refine ⟨_, (step_of_inputs_cons h).trans (cycle_present_encode i _), ?_, by simp, by simp⟩
  exact (after_regs_congr i (s := ({ s with inputs := rest } : State).beginStep) (s' := s) rfl rfl).1

/-! ### A whole program -/

/-- R67: as many steps as there are commands leave the registers that executing them one after another
leaves, from any state `s'` with the same registers and parameters. -/
theorem core_run_encoded (is : List Instr) (rest : List CycleIn) {s s' : State}
    (hin : s.inputs = is.map (fun i => present (encode i)) ++ rest)
    (hr : s.regs = s'.regs) (hp : s.params = s'.params) :
    ∃ t, Host.Core.run Sys2Proof.core is.length s = .next t ∧ t.regs = (afterAll is s').regs ∧
      t.params = s.params ∧ t.inputs = rest := by
  induction is generalizing s s' with
  | nil => exact ⟨s, rfl, hr, rfl, hin⟩
  | cons i is ih =>
    obtain ⟨t, hstep, htr, htp, hti⟩ := step_present_encode hin
    have hregs : t.regs = (after i s').regs := htr.trans (after_regs_congr i hr hp).1
    obtain ⟨u, hrun, hur, hup, hui⟩ := ih hti hregs (by rw [htp, hp, after_params])
    exact ⟨u, (core_run_succ is.length hstep).trans hrun, hur, hup.trans htp, hui⟩

/-- R241: with `PIPE` = 0 each cycle's ports carry the event list of the command presented in it. -/
theorem waveform_encoded (is : List Instr) {s s' : State} (hr : s.regs = s'.regs)
    (hp : s.params = s'.params) (hpipe : s.params.pipe = false) :
    waveform (is.map (fun i => present (encode i))) s = (stepEvents is s').map portsOf := by
  induction is generalizing s s' with
  | nil => rfl
  | cons i is ih =>
    have hregs : (latchOutputs s (after i s.beginStep)).regs = (after i s').regs :=
      (after_regs_congr i (s := s.beginStep) (s' := s') hr hp).1
    have hports : (latchOutputs s (after i s.beginStep)).ports = portsOf (after i s'.beginStep).events := by
      simp [hpipe, after_beginStep_events_congr i hr hp]
    simp only [List.map_cons, waveform, cycle_present_encode, stepEvents, hports]
    rw [ih hregs (by simp [hp]) (by simp [hpipe])]

/-- Settles O15: the machine's registers and its waveform, each by induction over the program, beside the
run of the same commands from the same state. -/
theorem encodedProgramRunsAsItsCommands : Obligations.EncodedProgramRunsAsItsCommands := by
  intro is s rest hin
  obtain ⟨t, hrun, hregs, hparams, hinputs⟩ := core_run_encoded is rest hin rfl rfl
  exact ⟨t, afterAll is s, stepEvents is s, hrun, run_eq_afterAll is s, hregs, hparams, hinputs,
    afterAll_events is s, waveform_encoded is rfl rfl⟩

end Sys2Proof.Machine
end

section
/-! The two halves commute (spec/00_scope.md R68): each command writes its own half and appends events of its
own half, so either order of two commands of different halves leaves one state up to the order of events. -/

namespace Sys2Proof.Machine

/-! ### The events of one half -/

@[simp] theorem eventsOfHalf_append (h : Half) (es fs : List OutEvent) :
    eventsOfHalf h (es ++ fs) = eventsOfHalf h es ++ eventsOfHalf h fs :=
  List.filter_append ..

theorem eventsOfHalf_eq_nil {h : Half} {es : List OutEvent} (hes : ∀ e ∈ es, e.half ≠ h) :
    eventsOfHalf h es = [] := by
  simpa [eventsOfHalf] using hes

/-- R91: the events a command emits are of its own half. -/
theorem half_of_mem_after_events (i : Instr) (s : State) :
    ∀ e ∈ (after i s.beginStep).events, e.half = i.half := by
  cases i with
  | nop d => simp [after]
  | encPush b =>
    rcases Nat.lt_or_ge s.encCnt.toNat 2 with hn | hn
    · simp [after, encPushState_oneSym (s := s.beginStep) b hn, OutEvent.half, Instr.half]
    · simp [after, encPushState_twoSyms (s := s.beginStep) b hn, OutEvent.half, Instr.half]
  | encEnd d =>
    rcases Nat.eq_zero_or_pos s.encCnt.toNat with hn | hn
    · simp [after, encEndState_boundary (s := s.beginStep) hn, OutEvent.half, Instr.half]
    · simp [after, encEndState_partial (s := s.beginStep) hn, OutEvent.half, Instr.half]
  | encClr d => simp [after]
  | illegal100 d => simp [after]
  | decPush c =>
    rcases decPushState_cases c s.beginStep with ⟨-, e⟩ | ⟨-, -, e⟩ | ⟨-, -, -, e⟩ | ⟨-, -, -, e⟩
    · simp [after, e]
    · simp [after, e]
    · simp [after, e]
    · simp [after, e, OutEvent.half, Instr.half]
  | decEnd d =>
    obtain ⟨st, pos, c, e⟩ := decVerdict_emits s.beginStep
    simp [after, e, OutEvent.half, Instr.half]
  | decClr d => simp [after]

/-- A command of one half adds no event of another. -/
theorem eventsOfHalf_after_of_ne {i : Instr} {h : Half} (hne : i.half ≠ h) (s : State) :
    eventsOfHalf h (after i s.beginStep).events = [] :=
  eventsOfHalf_eq_nil fun e he => (half_of_mem_after_events i s e he).trans_ne hne

/-! ### Two commands of different halves -/

section
variable {e d : Instr} (he : e.half = .encoder) (hd : d.half = .decoder) (s : State)
include he hd

/-- R25: a decoder command run after an encoder command does to the decoder what it does alone. -/
theorem after_decoder_after_encoder :
    after d (after e s) =
      { after d s with
        encAcc := (after e s).encAcc
        encCnt := (after e s).encCnt
        events := s.events ++ (after e s.beginStep).events ++ (after d s.beginStep).events } := by
  rw [after_of_half_decoder hd (after_encoder_frame he s).1 (after_params e s), after_events e s,
    after_of_half_encoder he (s := s) ⟨rfl, rfl⟩,
    after_of_half_decoder hd (s := s) ⟨rfl, rfl, rfl, rfl, rfl, rfl⟩ rfl]

/-- R25: an encoder command run after a decoder command does to the encoder what it does alone. -/
theorem after_encoder_after_decoder :
    after e (after d s) =
      { after d s with
        encAcc := (after e s).encAcc
        encCnt := (after e s).encCnt
        events := s.events ++ (after d s.beginStep).events ++ (after e s.beginStep).events } := by
  rw [after_of_half_encoder he (after_decoder_frame hd s).1, after_events d s]

end

/-- Settles O28: both orders leave the decoder command's state with the encoder command's registers, and the
events of each half are those of that half's command. -/
theorem theTwoHalvesCommute : Obligations.TheTwoHalvesCommute := by
  intro e d s he hd
  have hEnc : eventsOfHalf .decoder (after e s.beginStep).events = [] :=
    eventsOfHalf_after_of_ne (by simp [he]) s
  have hDec : eventsOfHalf .encoder (after d s.beginStep).events = [] :=
    eventsOfHalf_after_of_ne (by simp [hd]) s
  refine ⟨after d (after e s), after e (after d s), after e s, after d s, run_eq_afterAll _ _,
    run_eq_afterAll _ _, exec_eq_after e s, exec_eq_after d s, ?_⟩
  rw [after_decoder_after_encoder he hd, after_encoder_after_decoder he hd, after_events e s,
    after_events d s]
  simp [hEnc, hDec]

end Sys2Proof.Machine
end

section
/-! The two tables (spec/20_memory.md R61 to R64): closed facts about 32 addresses and 256 codes, each
evaluated once, and what follows from them. -/

namespace Sys2Proof.Machine

theorem validChar_encRom (i : Sym) : validChar (encRom i) = true := by
  revert i
  decide

theorem charValue_encRom (i : Sym) : charValue (encRom i) = i := by
  revert i
  decide

/-- R61: `DEC_ROM` inverts `ENC_ROM`, so no two addresses share an entry. -/
theorem encRom_injective : Function.Injective encRom :=
  Function.LeftInverse.injective charValue_encRom

theorem isDigit_or_isUpper_encRom (i : Sym) : (isDigit (encRom i) || isUpper (encRom i)) = true := by
  revert i
  decide

/-- R61: the lower-case form of a letter of `ENC_ROM` is valid and has the letter's value. -/
theorem lower_encRom (i : Sym) (h : isUpper (encRom i) = true) :
    validChar (encRom i ||| 0x20) = true ∧ charValue (encRom i ||| 0x20) = i := by
  revert i
  decide

theorem charValue_eq_zero_iff (c : Byte) (h : validChar c = true) :
    charValue c = 0 ↔ c ∈ ([0x30, 0x4F, 0x6F] : List Byte) := by
  revert c
  decide

theorem charValue_eq_one_iff (c : Byte) (h : validChar c = true) :
    charValue c = 1 ↔ c ∈ ([0x31, 0x49, 0x69, 0x4C, 0x6C] : List Byte) := by
  revert c
  decide

theorem charValue_eq_twentySeven_iff (c : Byte) (h : validChar c = true) :
    charValue c = 27 ↔ c ∈ ([0x56, 0x76, 0x55, 0x75] : List Byte) := by
  revert c
  decide

/-- R64: a valid code whose value is another letter's is that letter in one of its two cases. -/
theorem eq_canonicalChar_or_lower (c : Byte) (h : validChar c = true) (h0 : charValue c ≠ 0)
    (h1 : charValue c ≠ 1) (h27 : charValue c ≠ 27) (hl : isUpper (canonicalChar c) = true) :
    c = canonicalChar c ∨ c = canonicalChar c ||| 0x20 := by
  revert c
  decide

/-- R64: such a letter has exactly these two codes. -/
theorem charValue_eq_iff_of_isUpper (c : Byte) (i : Sym) (h : validChar c = true) (h0 : i ≠ 0)
    (h1 : i ≠ 1) (h27 : i ≠ 27) (hl : isUpper (encRom i) = true) :
    charValue c = i ↔ c = encRom i ∨ c = encRom i ||| 0x20 := by
  constructor
  · rintro rfl
    exact eq_canonicalChar_or_lower c h h0 h1 h27 hl
  · rintro (rfl | rfl)
    · exact charValue_encRom i
    · exact (lower_encRom i hl).2

/-- Settles O44: injectivity from the inversion, and the codes of each value from the evaluated table. -/
theorem theTwoTablesAreInverse : Obligations.TheTwoTablesAreInverse := by
  refine ⟨fun i j h => encRom_injective h, isDigit_or_isUpper_encRom,
    fun i => ⟨validChar_encRom i, charValue_encRom i, lower_encRom i⟩, fun c h => ?_⟩
  exact ⟨charValue_eq_zero_iff c h, charValue_eq_one_iff c h, charValue_eq_twentySeven_iff c h,
    fun i h0 h1 h27 hl => charValue_eq_iff_of_isUpper c i h h0 h1 h27 hl⟩

/-- R63: the four steps of the definition, evaluated at all 256 codes. -/
theorem decRom_eq_decRomByRule (c : Byte) : decRom c = decRomByRule c := by
  revert c
  decide

/-- R62: the number of valid codes. -/
theorem validChar_count :
    ((List.range 256).filter (fun n => validChar (BitVec.ofNat 8 n))).length = 62 := by
  decide

/-- Settles O45: the rule and the count, each evaluated over the 256 codes. -/
theorem decRomFollowsTheNormalisationRules : Obligations.DecRomFollowsTheNormalisationRules :=
  ⟨decRom_eq_decRomByRule, validChar_count⟩

end Sys2Proof.Machine
end

section
/-! Bit strings (spec/20_memory.md R50): the number a bit string stands for, its first bit most significant,
how cutting the string divides that number, and the complete groups of a string one at a time. -/

namespace Sys2Proof.Machine

/-! ### The number of a bit string -/

/-- The number whose binary digits are these bits, the first one most significant. -/
def bitsValue (bits : List Bool) : Nat := bits.foldl (fun x b => 2 * x + b.toNat) 0

theorem valueOf_eq_ofNat (n : Nat) (bits : List Bool) : valueOf n bits = BitVec.ofNat n (bitsValue bits) := rfl

@[simp] theorem bitsValue_nil : bitsValue [] = 0 := rfl

theorem bitsValue_concat (bits : List Bool) (b : Bool) :
    bitsValue (bits ++ [b]) = 2 * bitsValue bits + b.toNat := by
  simp [bitsValue]

theorem bitsValue_append (xs ys : List Bool) :
    bitsValue (xs ++ ys) = bitsValue xs * 2 ^ ys.length + bitsValue ys := by
  induction ys using List.reverseRecOn with
  | nil => simp
  | append_singleton ys b ih =>
    rw [← List.append_assoc, bitsValue_concat, bitsValue_concat, ih, List.length_append, List.length_singleton]
    ring

theorem bitsValue_lt (bits : List Bool) : bitsValue bits < 2 ^ bits.length := by
  induction bits using List.reverseRecOn with
  | nil => simp
  | append_singleton bits b ih =>
    have hb : b.toNat ≤ 1 := Bool.toNat_le b
    rw [bitsValue_concat, List.length_append, List.length_singleton, Nat.pow_succ]
    omega

theorem bitsValue_replicate_false (n : Nat) : bitsValue (List.replicate n false) = 0 := by
  induction n with
  | zero => rfl
  | succ n ih => rw [List.replicate_succ', bitsValue_concat, ih]; rfl

/-- The first `k` bits are the quotient by the weight of the rest. -/
theorem bitsValue_take (bits : List Bool) (k : Nat) :
    bitsValue (bits.take k) = bitsValue bits / 2 ^ (bits.length - k) := by
  have hlt := bitsValue_lt (bits.drop k)
  rw [List.length_drop] at hlt
  conv_rhs => rw [← List.take_append_drop k bits, bitsValue_append]
  rw [List.take_append_drop, List.length_drop, Nat.mul_comm, Nat.mul_add_div (Nat.two_pow_pos _),
    Nat.div_eq_of_lt hlt, Nat.add_zero]

/-- The bits after the first `k` are the remainder. -/
theorem bitsValue_drop (bits : List Bool) (k : Nat) :
    bitsValue (bits.drop k) = bitsValue bits % 2 ^ (bits.length - k) := by
  have hlt := bitsValue_lt (bits.drop k)
  rw [List.length_drop] at hlt
  conv_rhs => rw [← List.take_append_drop k bits, bitsValue_append]
  rw [List.take_append_drop, List.length_drop, Nat.mul_add_mod_self_right, Nat.mod_eq_of_lt hlt]

/-- A group of `k` bits from the inside of a string. -/
theorem valueOf_take_drop (bits : List Bool) {j k : Nat} (h : j + k ≤ bits.length) :
    valueOf k ((bits.drop j).take k) =
      BitVec.ofNat k (bitsValue bits / 2 ^ (bits.length - (j + k)) % 2 ^ k) := by
  have hgroup : (bits.drop j).take k = (bits.take (j + k)).drop j := by
    rw [List.drop_take, Nat.add_sub_cancel_left]
  rw [valueOf_eq_ofNat, hgroup, bitsValue_drop, bitsValue_take, List.length_take, Nat.min_eq_left h,
    Nat.add_sub_cancel_left]

/-! ### The bits of a word -/

@[simp] theorem length_bitsOf (n : Nat) (x : BitVec n) : (bitsOf n x).length = n := by
  simp [bitsOf]

theorem bitsValue_testBits (n x : Nat) :
    bitsValue ((List.range n).map (fun j => x.testBit (n - 1 - j))) = x % 2 ^ n := by
  induction n generalizing x with
  | zero => simp [Nat.mod_one]
  | succ n ih =>
    have hinit : (List.range n).map (fun j => x.testBit (n + 1 - 1 - j)) =
        (List.range n).map (fun j => (x / 2).testBit (n - 1 - j)) := by
      refine List.map_congr_left fun j hj => ?_
      rw [List.mem_range] at hj
      rw [show n + 1 - 1 - j = (n - 1 - j) + 1 by omega, Nat.testBit_succ]
    have hlast : (x.testBit (n + 1 - 1 - n)).toNat = x % 2 := by
      rw [Nat.toNat_testBit]
      simp
    rw [List.range_succ, List.map_append, List.map_singleton, bitsValue_concat, hinit, ih, hlast,
      Nat.pow_succ', Nat.mod_mul]
    omega

@[simp] theorem bitsValue_bitsOf (n : Nat) (x : BitVec n) : bitsValue (bitsOf n x) = x.toNat := by
  have h := bitsValue_testBits n x.toNat
  rwa [Nat.mod_eq_of_lt x.isLt] at h

/-- Appending a word's bits shifts the accumulator and joins the word (R110, R130). -/
theorem bitsValue_append_bitsOf (bits : List Bool) (n : Nat) (x : BitVec n) :
    bitsValue (bits ++ bitsOf n x) = bitsValue bits <<< n ||| x.toNat := by
  rw [bitsValue_append, length_bitsOf, bitsValue_bitsOf, shiftLeft_or_eq_add _ _ n x.isLt]

/-! ### The complete groups of a bit string -/

/-- All complete groups of `k` bits. -/
def completeGroups (k : Nat) (bits : List Bool) : List (List Bool) := groups k (bits.length / k) bits

theorem completeGroups_of_lt {k : Nat} {bits : List Bool} (h : bits.length < k) :
    completeGroups k bits = [] := by
  rw [completeGroups, Nat.div_eq_of_lt h, groups]

theorem completeGroups_of_le {k : Nat} {bits : List Bool} (hk : 0 < k) (h : k ≤ bits.length) :
    completeGroups k bits = bits.take k :: completeGroups k (bits.drop k) := by
  rw [completeGroups, Nat.div_eq_sub_div hk h, groups, completeGroups, List.length_drop]

/-- R50: zero bits appended up to a multiple of 5. -/
def padToFive (bits : List Bool) : List Bool :=
  bits ++ List.replicate ((5 - bits.length % 5) % 5) false

/-- The characters of a bit string: its groups of 5 bits after padding, each looked up in `ENC_ROM`. -/
def packSyms (bits : List Bool) : List Byte :=
  (completeGroups 5 (padToFive bits)).map (fun g => encRom (valueOf 5 g))

/-- The bytes of a bit string: its complete groups of 8 bits. -/
def packBytes (bits : List Bool) : List Byte := (completeGroups 8 bits).map (valueOf 8)

theorem packEncode_eq_packSyms (bs : List Byte) : packEncode bs = packSyms (bs.flatMap (bitsOf 8)) := by
  have hlen : (bs.flatMap (bitsOf 8)).length = 8 * bs.length := by simp [List.length_flatMap, Nat.mul_comm]
  rw [packSyms, padToFive, hlen]
  rfl

theorem packDecode_eq_packBytes (vs : List Sym) : packDecode vs = packBytes (vs.flatMap (bitsOf 5)) := rfl

theorem packSyms_nil : packSyms [] = [] := rfl

/-- A full group is the next character. -/
theorem packSyms_of_le {bits : List Bool} (h : 5 ≤ bits.length) :
    packSyms bits = encRom (valueOf 5 (bits.take 5)) :: packSyms (bits.drop 5) := by
  have hpad : (5 - (bits.length - 5) % 5) % 5 = (5 - bits.length % 5) % 5 := by omega
  have hdrop : (padToFive bits).drop 5 = padToFive (bits.drop 5) := by
    rw [padToFive, padToFive, List.drop_append_of_le_length h, List.length_drop, hpad]
  rw [packSyms, completeGroups_of_le (by decide) (by simp [padToFive]; omega), hdrop, List.map_cons,
    padToFive, List.take_append_of_le_length h, packSyms]

/-- An incomplete last group is padded to the last character. -/
theorem packSyms_of_lt {bits : List Bool} (h0 : 0 < bits.length) (h : bits.length < 5) :
    packSyms bits = [encRom (BitVec.ofNat 5 (bitsValue bits * 2 ^ (5 - bits.length)))] := by
  have hpad : (5 - bits.length % 5) % 5 = 5 - bits.length := by omega
  have hlen : (padToFive bits).length = 5 := by simp [padToFive]; omega
  have hval : bitsValue (padToFive bits) = bitsValue bits * 2 ^ (5 - bits.length) := by
    rw [padToFive, hpad, bitsValue_append, bitsValue_replicate_false, List.length_replicate, Nat.add_zero]
  rw [packSyms, completeGroups_of_le (by decide) (by omega), List.take_of_length_le (by omega),
    completeGroups_of_lt (by simp [hlen]), List.map_singleton, valueOf_eq_ofNat, hval]

/-- A full group is the next byte. -/
theorem packBytes_of_le {bits : List Bool} (h : 8 ≤ bits.length) :
    packBytes bits = valueOf 8 (bits.take 8) :: packBytes (bits.drop 8) := by
  rw [packBytes, completeGroups_of_le (by decide) h, List.map_cons, packBytes]

/-- An incomplete group is never output. -/
theorem packBytes_of_lt {bits : List Bool} (h : bits.length < 8) : packBytes bits = [] := by
  rw [packBytes, completeGroups_of_lt h, List.map_nil]

end Sys2Proof.Machine
end

section
/-! Messages as bit strings (spec/20_memory.md R50): the registers of a half hold the bits taken in and not
yet sent, a push appends its operand's bits, and every complete group is sent as soon as it is there. -/

namespace Sys2Proof.Machine

/-! ### What a message leaves to be read -/

@[simp] theorem eventsAfter_run (is : List Instr) (s : State) :
    eventsAfter (run is s) = (afterAll is s).events := by
  rw [run_eq_afterAll]
  rfl

@[simp] theorem encSyms_map_encSym (codes : List Byte) : encSyms (codes.map OutEvent.encSym) = codes := by
  simp [encSyms, List.filterMap_map, Function.comp_def, OutEvent.symCode?]

@[simp] theorem decBytes_map_decByte (ys : List Byte) : decBytes (ys.map OutEvent.decByte) = ys := by
  simp [decBytes, List.filterMap_map, Function.comp_def, OutEvent.byte?]

@[simp] theorem encSyms_append (es fs : List OutEvent) : encSyms (es ++ fs) = encSyms es ++ encSyms fs :=
  List.filterMap_append

@[simp] theorem decBytes_append (es fs : List OutEvent) : decBytes (es ++ fs) = decBytes es ++ decBytes fs :=
  List.filterMap_append

@[simp] theorem encSyms_encEnd : encSyms [.encEnd] = [] := rfl

@[simp] theorem decBytes_decEnd (st : DecStatus) (pos : Nat) (c : Byte) :
    decBytes [.decEnd st pos c] = [] := rfl

theorem decodeResultFrom_bytes_verdict (xs ys : List Byte) (st : DecStatus) (pos : Nat) (c : Byte) :
    decodeResultFrom xs (ys.map OutEvent.decByte ++ [.decEnd st pos c]) =
      some (resultOf (xs ++ ys) st pos c) := by
  induction ys generalizing xs with
  | nil => simp [decodeResultFrom]
  | cons y ys ih =>
    rw [List.map_cons, List.cons_append, decodeResultFrom, ih, List.append_assoc, List.singleton_append]

/-! ### The encoder -/

/-- R28: of the accumulator the encoder tracks, only the bits after those already sent matter. -/
theorem EncTracks.drop {s : State} {bits : List Bool} {n k : Nat} (h : EncTracks s (bitsValue bits) n)
    (hn : n = bits.length - k) : EncTracks s (bitsValue (bits.drop k)) (bits.drop k).length := by
  obtain ⟨hcnt, hle, hacc⟩ := h
  rw [List.length_drop, ← hn]
  refine ⟨hcnt, hle, ?_⟩
  rw [hacc, bitsValue_drop, ← hn, Nat.mod_mod]

/-- `ENC_PUSH` appends the byte's bits to the buffered ones, sends the complete groups and keeps the rest
(R110). -/
theorem encPush_packs {s : State} {bits : List Bool} (h : EncTracks s (bitsValue bits) bits.length)
    (b : Byte) :
    ∃ codes rest, (encPushState b s).events = s.events ++ codes.map OutEvent.encSym ∧
      EncTracks (encPushState b s) (bitsValue rest) rest.length ∧
      ∀ more, packSyms (bits ++ bitsOf 8 b ++ more) = codes ++ packSyms (rest ++ more) := by
  have hlen : (bits ++ bitsOf 8 b).length = bits.length + 8 := by simp
  have hpush := encPush_tracks h b
  rw [← bitsValue_append_bitsOf] at hpush
  have hle := h.le
  generalize bits ++ bitsOf 8 b = all at hlen hpush ⊢
  have hfirst (more : List Bool) : packSyms (all ++ more) =
      encRom (BitVec.ofNat 5 (bitsValue all / 2 ^ (bits.length + 3) % 32)) ::
        packSyms (all.drop 5 ++ more) := by
    have hval := valueOf_take_drop all (j := 0) (k := 5) (by omega)
    rw [List.drop_zero, hlen] at hval
    rw [packSyms_of_le (by simp; omega), List.take_append_of_le_length (by omega),
      List.drop_append_of_le_length (by omega), hval]
    rfl
  rcases Nat.lt_or_ge bits.length 2 with h2 | h2
  · rw [refDrain_oneSym _ _ h2] at hpush
    obtain ⟨hev, htr⟩ := hpush
    exact ⟨_, all.drop 5, hev, htr.drop (by omega), hfirst⟩
  · rw [refDrain_twoSyms _ _ h2 hle] at hpush
    obtain ⟨hev, htr⟩ := hpush
    refine ⟨_, all.drop 10, hev, htr.drop (by omega), fun more => ?_⟩
    have hval := valueOf_take_drop all (j := 5) (k := 5) (by omega)
    rw [hlen, show bits.length + 8 - (5 + 5) = bits.length - 2 by omega] at hval
    rw [hfirst, packSyms_of_le (by simp; omega), List.take_append_of_le_length (by simp; omega),
      List.drop_append_of_le_length (by simp; omega), hval, List.drop_drop]
    rfl

/-- `ENC_END` sends the last incomplete group, padded, and the end marker (R111). -/
theorem encEnd_packs {s : State} {bits : List Bool} (h : EncTracks s (bitsValue bits) bits.length) :
    (encEndState s).events = s.events ++ (packSyms bits).map OutEvent.encSym ++ [.encEnd] := by
  have hle := h.le
  have hlast : encodeRefFrom [] (bitsValue bits) bits.length = packSyms bits := by
    rcases Nat.eq_zero_or_pos bits.length with h0 | h0
    · rw [List.length_eq_zero_iff] at h0
      simp [h0, encodeRefFrom, packSyms_nil]
    · rw [packSyms_of_lt h0 (by omega), encodeRefFrom, if_pos h0, and_sym_mask, Nat.shiftLeft_eq]
      congr 2
      exact BitVec.eq_of_toNat_eq (by simp)
  rw [encEnd_tracks h, hlast]

/-- An encode message sends the characters of the buffered bits and the bytes' bits. -/
theorem encodeProgram_packs (bs : List Byte) {s : State} {bits : List Bool}
    (h : EncTracks s (bitsValue bits) bits.length) :
    (afterAll (encodeProgram bs) s).events =
      s.events ++ (packSyms (bits ++ bs.flatMap (bitsOf 8))).map OutEvent.encSym ++ [.encEnd] := by
  induction bs generalizing s bits with
  | nil =>
    rw [List.flatMap_nil, List.append_nil]
    exact encEnd_packs h
  | cons b bs ih =>
    obtain ⟨codes, rest, hev, htr, hpack⟩ := encPush_packs h b
    have hrun : afterAll (encodeProgram (b :: bs)) s = afterAll (encodeProgram bs) (encPushState b s) := rfl
    rw [hrun, ih htr, hev, List.flatMap_cons, ← List.append_assoc bits, hpack]
    simp

/-- R50, the encode direction. -/
theorem encodeHw_eq_packEncode (p : Params) (bs : List Byte) : encodeHw p bs = packEncode bs := by
  have h : EncTracks (State.resetWith p) 0 0 := EncTracks.of_idle ⟨rfl, rfl⟩
  rw [encodeHw, eventsAfter_run, encodeProgram_packs bs (bits := []) h, packEncode_eq_packSyms]
  simp

/-! ### The decoder -/

/-- R28: of the accumulator the decoder tracks, only the bits after those already sent matter. -/
theorem DecTracks.drop {s : State} {bits : List Bool} {i n k : Nat} (h : DecTracks s i (bitsValue bits) n)
    (hn : n = bits.length - k) : DecTracks s i (bitsValue (bits.drop k)) (bits.drop k).length := by
  obtain ⟨herr, hcnt, hacc, hpos⟩ := h
  rw [List.length_drop, ← hn]
  refine ⟨herr, hcnt, ?_, hpos⟩
  rw [hacc, bitsValue_drop, ← hn, Nat.mod_mod]

theorem DecTracks.lt {s : State} {i acc n : Nat} (h : DecTracks s i acc n) : n < 8 :=
  h.cnt ▸ s.decCnt.isLt

/-- `DEC_PUSH` of a valid character appends the value's bits to the buffered ones, sends the group of 8 if it
is complete and keeps the rest (R130). -/
theorem decPush_packs {s : State} {i : Nat} {bits : List Bool}
    (h : DecTracks s i (bitsValue bits) bits.length) {c : Byte} (hc : validChar c = true) :
    ∃ ys rest, (decPushState c s).events = s.events ++ ys.map OutEvent.decByte ∧
      DecTracks (decPushState c s) (i + 1) (bitsValue rest) rest.length ∧
      ∀ more, packBytes (bits ++ bitsOf 5 (charValue c) ++ more) = ys ++ packBytes (rest ++ more) := by
  have hlen : (bits ++ bitsOf 5 (charValue c)).length = bits.length + 5 := by simp
  have hpush := decPush_tracks h hc
  rw [← bitsValue_append_bitsOf] at hpush
  obtain ⟨hshort, hfull⟩ := hpush
  generalize bits ++ bitsOf 5 (charValue c) = all at hlen hshort hfull ⊢
  rcases Nat.lt_or_ge (bits.length + 5) 8 with h8 | h8
  · obtain ⟨hev, htr⟩ := hshort h8
    exact ⟨[], all, by simpa using hev, hlen ▸ htr, fun more => rfl⟩
  · obtain ⟨hev, htr⟩ := hfull h8
    refine ⟨[_], all.drop 8, hev, htr.drop (by omega), fun more => ?_⟩
    have hval := valueOf_take_drop all (j := 0) (k := 8) (by omega)
    rw [List.drop_zero, hlen, Nat.zero_add] at hval
    rw [packBytes_of_le (by simp; omega), List.take_append_of_le_length (by omega),
      List.drop_append_of_le_length (by omega), hval, Nat.shiftRight_eq_div_pow, and_byte_mask]
    rfl

/-- Valid characters send the bytes of the buffered bits and the values' bits. -/
theorem decPushes_pack (cs : List Byte) {s : State} {i : Nat} {bits : List Bool}
    (h : DecTracks s i (bitsValue bits) bits.length) (hcs : ∀ c ∈ cs, validChar c = true) :
    (afterAll (cs.map Instr.decPush) s).events =
      s.events ++ (packBytes (bits ++ (cs.map charValue).flatMap (bitsOf 5))).map OutEvent.decByte := by
  induction cs generalizing s i bits with
  | nil => simp [packBytes_of_lt h.lt]
  | cons c cs ih =>
    obtain ⟨hc, hcs⟩ := List.forall_mem_cons.mp hcs
    obtain ⟨ys, rest, hev, htr, hpack⟩ := decPush_packs h hc
    have hrun : afterAll ((c :: cs).map Instr.decPush) s =
        afterAll (cs.map Instr.decPush) (decPushState c s) := rfl
    rw [hrun, ih htr hcs, hev, List.map_cons, List.flatMap_cons, ← List.append_assoc bits, hpack]
    simp

/-- A decode message ends with the verdict on the state its characters leave. -/
theorem decodeProgram_events (cs : List Byte) (s : State) :
    (afterAll (decodeProgram cs) s).events =
      (decVerdict (afterAll (cs.map Instr.decPush) s)).events := by
  rw [decodeProgram, afterAll_append]
  rfl

/-- R50, the decode direction for a text of valid characters, whatever its verdict. -/
theorem decBytes_decodeProgram (p : Params) {cs : List Byte} (hcs : ∀ c ∈ cs, validChar c = true) :
    decBytes (eventsAfter (run (decodeProgram cs) (State.resetWith p))) = packDecode (cs.map charValue) := by
  have h : DecTracks (State.resetWith p) 0 0 0 := DecTracks.of_idle ⟨rfl, rfl, rfl, rfl, rfl, rfl⟩
  obtain ⟨st, pos, c, hverdict⟩ := decVerdict_emits (afterAll (cs.map Instr.decPush) (State.resetWith p))
  rw [eventsAfter_run, decodeProgram_events, hverdict, State.emit_events, decPushes_pack cs (bits := []) h hcs,
    packDecode_eq_packBytes]
  simp

/-! ### Accepted texts -/

/-- One character sends a byte or nothing. -/
theorem decPushState_events (c : Byte) (s : State) :
    ∃ ys : List Byte, (decPushState c s).events = s.events ++ ys.map OutEvent.decByte := by
  rcases decPushState_cases c s with ⟨-, e⟩ | ⟨-, -, e⟩ | ⟨-, -, -, e⟩ | ⟨-, -, -, e⟩ <;> rw [e]
  · exact ⟨[], by simp⟩
  · exact ⟨[], by simp⟩
  · exact ⟨[], by simp⟩
  · exact ⟨[_], rfl⟩

/-- Characters send nothing but bytes. -/
theorem decPushes_events (cs : List Byte) (s : State) :
    ∃ ys : List Byte, (afterAll (cs.map Instr.decPush) s).events = s.events ++ ys.map OutEvent.decByte := by
  induction cs generalizing s with
  | nil => exact ⟨[], by simp⟩
  | cons c cs ih =>
    obtain ⟨xs, hxs⟩ := decPushState_events c s
    obtain ⟨ys, hys⟩ := ih (decPushState c s)
    refine ⟨xs ++ ys, ?_⟩
    rw [List.map_cons, afterAll_cons, List.map_append, ← List.append_assoc, ← hxs]
    exact hys

/-- R131, R201: characters leave the error condition if it was there before or one of them is invalid. -/
theorem decPushes_decErr_iff (cs : List Byte) (s : State) :
    (afterAll (cs.map Instr.decPush) s).decErr = true ↔
      s.decErr = true ∨ ∃ c ∈ cs, validChar c = false := by
  induction cs generalizing s with
  | nil => simp
  | cons c cs ih =>
    rw [List.map_cons, afterAll_cons, ih, after_decErr_iff]
    cases he : s.decErr with
    | true => simp [Instr.opcode]
    | false => simp [Instr.opcode, Instr.data]

/-- R171: the result of a text is the verdict on the state its characters leave, with the bytes sent. -/
theorem decodeHw_eq_resultOf (p : Params) (cs : List Byte) {st : DecStatus} {pos : Nat} {c : Byte}
    (hv : decVerdict (afterAll (cs.map Instr.decPush) (State.resetWith p)) =
      (afterAll (cs.map Instr.decPush) (State.resetWith p)).emit (.decEnd st pos c)) :
    decodeHw p cs =
      some (resultOf (decBytes (eventsAfter (run (decodeProgram cs) (State.resetWith p)))) st pos c) := by
  obtain ⟨ys, hys⟩ := decPushes_events cs (State.resetWith p)
  have hev : eventsAfter (run (decodeProgram cs) (State.resetWith p)) =
      ys.map OutEvent.decByte ++ [.decEnd st pos c] := by
    rw [eventsAfter_run, decodeProgram_events, hv, State.emit_events, hys]
    rfl
  have hbytes : decBytes (ys.map OutEvent.decByte ++ [.decEnd st pos c]) = ys := by simp
  rw [decodeHw, hev, decodeResult, decodeResultFrom_bytes_verdict, hbytes, List.nil_append]

/-- An accepted text has valid characters only, and its result is the bytes it sent. -/
theorem decodeHw_eq_ok {p : Params} {cs ys : List Byte} (h : decodeHw p cs = some (.ok ys)) :
    (∀ c ∈ cs, validChar c = true) ∧
      ys = decBytes (eventsAfter (run (decodeProgram cs) (State.resetWith p))) := by
  have hvalid : ∀ c ∈ cs, validChar c = true := by
    by_contra hbad
    have herr : (afterAll (cs.map Instr.decPush) (State.resetWith p)).decErr = true := by
      rw [decPushes_decErr_iff]
      exact .inr (by simpa using hbad)
    rw [decodeHw_eq_resultOf p cs (decVerdict_error herr)] at h
    simp [resultOf] at h
  obtain ⟨st, pos, c, hv⟩ := decVerdict_emits (afterAll (cs.map Instr.decPush) (State.resetWith p))
  rw [decodeHw_eq_resultOf p cs hv] at h
  refine ⟨hvalid, ?_⟩
  cases st with
  | ok => simpa [resultOf] using h.symm
  | invalidChar => simp [resultOf] at h
  | nonzeroPad => simp [resultOf] at h

/-- Settles O50: each direction by induction over the message, with the buffered bits generalised. -/
theorem messagesPackBitsBigEndian : Obligations.MessagesPackBitsBigEndian := by
  intro p
  refine ⟨encodeHw_eq_packEncode p, fun cs ys h => ?_, fun cs hcs => decBytes_decodeProgram p hcs⟩
  obtain ⟨hvalid, hys⟩ := decodeHw_eq_ok h
  rw [hys, decBytes_decodeProgram p hvalid]

end Sys2Proof.Machine
end

section
/-! The encoding of command words (spec/30_encoding.md R80 to R88): a word is its field `op` beside its field
`data`, the mask 0x700 keeps the first, and the first alone selects the row. With it, what a presented command
shows on the outputs (R90 to R98). -/

namespace Sys2Proof.Machine

/-! ### Words and their two fields -/

/-- R80: a word is its two fields side by side. -/
theorem opField_append_dataField (w : CmdWord) : (opField w ++ dataField w : CmdWord) = w :=
  BitVec.extractLsb'_append_extractLsb' (w := 3) (len := 8)

theorem encode_decode (w : CmdWord) : encode (decode w) = w := by
  rw [encode, opcode_decode, data_decode]
  exact opField_append_dataField w

/-- Settles O1: each direction takes a word apart into `op` and `data` and puts it together again. -/
theorem decodeEncodeAgreeBothWays : Obligations.DecodeEncodeAgreeBothWays :=
  ⟨decode_encode, encode_decode⟩

/-- R82: the mask keeps `op` and clears `data`. -/
theorem append_and_mask (op : BitVec 3) (d : Byte) :
    (op ++ d : CmdWord) &&& 0x700 = op ++ (0x00 : Byte) := by
  rw [show (0x700 : CmdWord) = BitVec.allOnes 3 ++ (0x00 : Byte) by decide, BitVec.and_append,
    BitVec.and_allOnes]
  simp

theorem and_mask_eq_append (w : CmdWord) : w &&& 0x700 = opField w ++ (0x00 : Byte) := by
  calc
    w &&& 0x700 = (opField w ++ dataField w : CmdWord) &&& 0x700 := by rw [opField_append_dataField]
    _ = opField w ++ (0x00 : Byte) := append_and_mask _ _

/-- R82: a word that matches the row of `op` decodes to that row's command with the word's `data`. -/
theorem decode_of_and_mask {w : CmdWord} (op : BitVec 3) (h : w &&& 0x700 = op ++ (0x00 : Byte)) :
    decode w = decodeOp (op.getLsbD 2) (op.getLsbD 1) (op.getLsbD 0) (dataField w) := by
  have hop : opField w = op := by
    calc
      opField w = opField (opField w ++ (0x00 : Byte) : CmdWord) :=
        (Laws.EncodeFields.fields_append _ _).1.symm
      _ = opField (op ++ (0x00 : Byte) : CmdWord) := by rw [← and_mask_eq_append, h]
      _ = op := (Laws.EncodeFields.fields_append _ _).1
  rw [decode, hop]

theorem append_zero_mem_matchValues (op : BitVec 3) :
    op ++ (0x00 : Byte) ∈
      ([0x000, 0x100, 0x200, 0x300, 0x400, 0x500, 0x600, 0x700] : List CmdWord) := by
  revert op
  decide

/-- Settles O2: the masked word is one of the eight match values, and the row it names is the one the word
decodes to. -/
theorem everyWordSelectsExactlyOneRow : Obligations.EveryWordSelectsExactlyOneRow := by
  intro w
  refine ⟨⟨w &&& 0x700, ⟨?_, rfl⟩, fun m hm => hm.2.symm⟩,
    decode_of_and_mask 0b000, decode_of_and_mask 0b001, decode_of_and_mask 0b010,
    decode_of_and_mask 0b011, decode_of_and_mask 0b100, decode_of_and_mask 0b101,
    decode_of_and_mask 0b110, decode_of_and_mask 0b111⟩
  rw [and_mask_eq_append]
  exact append_zero_mem_matchValues _

/-- Settles O3: the sample words are evaluated. -/
theorem sampleWordsDecode : Obligations.SampleWordsDecode := by
  unfold Obligations.SampleWordsDecode
  decide

/-- Settles O4: the sample lines are evaluated. -/
theorem assemblerExamplesGiveTheirWords : Obligations.AssemblerExamplesGiveTheirWords := by
  unfold Obligations.AssemblerExamplesGiveTheirWords
  decide

/-! ### The ignored data bits -/

/-- R85: a command other than `ENC_PUSH` and `DEC_PUSH` does what its row does with any other `data`. -/
theorem exec_eq_exec_decodeOp {i : Instr} (henc : i.opcode ≠ 0b001) (hdec : i.opcode ≠ 0b101) (d : Byte)
    (s : State) :
    exec i s = exec (decodeOp (i.opcode.getLsbD 2) (i.opcode.getLsbD 1) (i.opcode.getLsbD 0) d) s := by
  cases i with
  | encPush b => exact absurd rfl henc
  | decPush c => exact absurd rfl hdec
  | _ => simp [Instr.opcode, decodeOp, exec]

/-- Settles O5: both words have the effect of their common row with `data` = 0. -/
theorem ignoredDataBitsHaveNoEffect : Obligations.IgnoredDataBitsHaveNoEffect := by
  intro w w' s hop henc hdec
  simp only [← opcode_decode] at hop henc hdec
  rw [exec_eq_exec_decodeOp henc hdec 0x00, hop]
  exact (exec_eq_exec_decodeOp (hop ▸ henc) (hop ▸ hdec) 0x00 s).symm

/-! ### Events and ports -/

/-- R90: a command emits one of the seven event lists. -/
theorem stepEvents_after_events (i : Instr) (s : State) : StepEvents (after i s.beginStep).events := by
  cases i with
  | nop d => exact .none
  | encPush b =>
    rw [after]
    rcases Nat.lt_or_ge s.encCnt.toNat 2 with hn | hn
    · rw [encPushState_oneSym (s := s.beginStep) b hn]
      exact .sym _
    · rw [encPushState_twoSyms (s := s.beginStep) b hn]
      exact .twoSyms _ _
  | encEnd d =>
    rw [after]
    rcases Nat.eq_zero_or_pos s.encCnt.toNat with hn | hn
    · rw [encEndState_boundary (s := s.beginStep) hn]
      exact .ended
    · rw [encEndState_partial (s := s.beginStep) hn]
      exact .symEnded _
  | encClr d => exact .none
  | illegal100 d => exact .none
  | decPush c =>
    rw [after]
    rcases decPushState_cases c s.beginStep with ⟨-, e⟩ | ⟨-, -, e⟩ | ⟨-, -, -, e⟩ | ⟨-, -, -, e⟩ <;> rw [e]
    · exact .none
    · exact .none
    · exact .none
    · exact .byte _
  | decEnd d =>
    obtain ⟨st, pos, c, e⟩ := decVerdict_emits s.beginStep
    rw [after, e]
    exact .verdict st pos c
  | decClr d => exact .none

/-- Settles O18: the events a command appends are those it emits from an empty list, which are one of the
seven lists and of its own half. -/
theorem commandEmitsOneOfTheSevenEventLists : Obligations.CommandEmitsOneOfTheSevenEventLists :=
  fun i s => ⟨after i s, _, exec_eq_after i s, after_events i s, stepEvents_after_events i s,
    half_of_mem_after_events i s⟩

/-- Settles O16: each list is driven onto the idle ports event by event, a second symbol on lane 1. -/
theorem portsCarryEachEventList : Obligations.PortsCarryEachEventList :=
  fun _ _ _ _ => ⟨rfl, rfl, rfl, rfl, rfl, rfl, rfl, rfl, rfl⟩

/-! ### A presented command -/

/-- Settles O6: the step is the presented command's cycle, and the command leaves the parameters that choose
the output stage as they are. -/
theorem stepRunsThePresentedCommand : Obligations.StepRunsThePresentedCommand := by
  intro s t i c rest _ hin hrst hvalid hdec ht
  have hafter : t = after i ({ s with inputs := rest } : State).beginStep := exec_next ht
  have hparams : t.params = s.params := by rw [hafter, after_params, State.beginStep_params]
  rw [step_of_inputs_cons hin, cycle_of_cmd _ hrst hvalid, hdec, ← hafter, latchOutputs, hparams]

/-- Settles O17: the cycle latches the error in the registers that drive the status wires. -/
theorem statusWiresShowTheErrorNextCycle : Obligations.StatusWiresShowTheErrorNextCycle := by
  intro c s herr hc
  refine ⟨_, cycle_present_encode (.decPush c) s, ?_⟩
  rw [after, decPushState_invalid (s := s.beginStep) c herr hc]
  rfl

end Sys2Proof.Machine
end

section
/-! The encoder commands (spec/40_encoder.md R110 to R114): what each answers, as one update of the state it
starts in, then the transient value's slices as numbers (R110) and as bit fields of `{enc_acc, b}` (R113), and
the count that a sequence of pushes runs through (R114). -/

namespace Sys2Proof.Machine

/-! ### What each command answers -/

section
variable {s : State}

/-- R110 from a count of 0 or 1: the push completes one symbol. -/
theorem exec_encPush_oneSym (b : Byte) (h : s.encCnt.toNat < 2) :
    exec (.encPush b) s = .next { s with
      encCnt := BitVec.ofNat 3 (s.encCnt.toNat + 3)
      encAcc := (keepLow (encShiftIn s.encAcc b) (s.encCnt.toNat + 3)).setWidth 4
      events := s.events ++ [.encSym (encRom (takeSym (encShiftIn s.encAcc b) (s.encCnt.toNat + 8)))] } := by
  rw [exec_eq_after, after, encPushState_oneSym b h]
  rfl

/-- R110 from a count of 2 or more: the push completes two symbols. -/
theorem exec_encPush_twoSyms (b : Byte) (h : 2 ≤ s.encCnt.toNat) :
    exec (.encPush b) s = .next { s with
      encCnt := BitVec.ofNat 3 (s.encCnt.toNat - 2)
      encAcc := (keepLow (encShiftIn s.encAcc b) (s.encCnt.toNat - 2)).setWidth 4
      events := s.events ++
        [.encSym (encRom (takeSym (encShiftIn s.encAcc b) (s.encCnt.toNat + 8))),
         .encSym (encRom (takeSym (encShiftIn s.encAcc b) (s.encCnt.toNat + 3)))] } := by
  rw [exec_eq_after, after, encPushState_twoSyms b h]
  simp [State.setEnc, State.emit]

/-- R111 on a group boundary. -/
theorem exec_encEnd_boundary (d : Byte) (h : s.encCnt.toNat = 0) :
    exec (.encEnd d) s = .next { s with encAcc := 0, encCnt := 0, events := s.events ++ [.encEnd] } := by
  rw [exec_eq_after, after, encEndState_boundary h]
  rfl

/-- R111 with buffered bits. -/
theorem exec_encEnd_partial (d : Byte) (h : 0 < s.encCnt.toNat) :
    exec (.encEnd d) s = .next { s with
      encAcc := 0
      encCnt := 0
      events := s.events ++ [.encSym (encRom (finalSym s.encAcc s.encCnt.toNat)), .encEnd] } := by
  rw [exec_eq_after, after, encEndState_partial h]
  simp [State.clearEnc, State.setEnc, State.emit]

end

/-! ### In exact arithmetic -/

/-- Settles O31: the two branches are the counts below 2 and from 2 on, and each slice of the transient value
is a quotient or a remainder of it. -/
theorem encPushFollowsThePseudocode : Obligations.EncPushFollowsThePseudocode := by
  intro b s ⟨hle, _⟩ t n sym
  have hfirst : n - 5 = s.encCnt.toNat + 3 := by omega
  have hsecond : n - 10 = s.encCnt.toNat - 2 := by omega
  constructor <;> intro hn
  · rw [exec_encPush_oneSym b (by omega), keepLow_setWidth_four _ _ (by omega), takeSym_eq_ofNat,
      encShiftIn_toNat, hfirst]
  · rw [exec_encPush_twoSyms b (by omega), keepLow_setWidth_four _ _ (by omega), takeSym_eq_ofNat,
      takeSym_eq_ofNat, encShiftIn_toNat, hfirst, hsecond,
      show s.encCnt.toNat + 3 - 5 = s.encCnt.toNat - 2 by omega]

/-- R111: the final symbol in exact arithmetic. -/
theorem finalSym_eq_ofNat (acc : BitVec 4) (cnt : Nat) :
    finalSym acc cnt = BitVec.ofNat 5 (acc.toNat * 2 ^ (5 - cnt)) :=
  BitVec.eq_of_toNat_eq (by rw [finalSym_toNat, BitVec.toNat_ofNat])

/-- Settles O33: the cases are a group boundary and buffered bits. -/
theorem encEndFollowsThePseudocode : Obligations.EncEndFollowsThePseudocode := by
  intro d s _
  refine ⟨exec_encEnd_boundary d, fun h => ?_⟩
  rw [exec_encEnd_partial d h, finalSym_eq_ofNat]

/-- Settles O34: `clearEnc` writes the two encoder registers and nothing else. -/
theorem encClrReturnsTheEncoderToIdle : Obligations.EncClrReturnsTheEncoderToIdle :=
  fun d => exec_eq_after (.encClr d)

/-! ### By bit fields -/

/-- R113: the transient value is the buffered bits beside the byte. -/
theorem encShiftIn_eq_append (acc : BitVec 4) (b : Byte) : encShiftIn acc b = acc ++ b := by
  apply BitVec.eq_of_toNat_eq
  rw [encShiftIn_toNat, BitVec.toNat_append, shiftLeft_or_eq_add _ _ 8 b.isLt]

theorem takeSym_eq_extractLsb' (t : Tmp) (n : Nat) : takeSym t n = t.extractLsb' (n - 5) 5 := by
  apply BitVec.eq_of_toNat_eq
  rw [takeSym_toNat, BitVec.extractLsb'_toNat, Nat.shiftRight_eq_div_pow]

theorem keepLow_setWidth_eq_extractLsb' (t : Tmp) (w : Nat) {n : Nat} (h : n ≤ 12) :
    (keepLow t n).setWidth w = (t.extractLsb' 0 n).setWidth w := by
  apply BitVec.eq_of_toNat_eq
  rw [BitVec.toNat_setWidth, BitVec.toNat_setWidth, keepLow_toNat t n h, BitVec.extractLsb'_toNat,
    Nat.shiftRight_zero]

section
variable {s : State} {n : Nat} (hcnt : s.encCnt.toNat = n)
include hcnt

/-- R113, the rows of counts 0 and 1. -/
theorem exec_encPush_oneSym_fields (b : Byte) (hn : n < 2) :
    exec (.encPush b) s = .next { s with
      encCnt := BitVec.ofNat 3 (n + 3)
      encAcc := ((s.encAcc ++ b : Tmp).extractLsb' 0 (n + 3)).setWidth 4
      events := s.events ++ [.encSym (encRom ((s.encAcc ++ b : Tmp).extractLsb' (n + 3) 5))] } := by
  subst hcnt
  rw [exec_encPush_oneSym b hn, keepLow_setWidth_eq_extractLsb' _ _ (by omega), takeSym_eq_extractLsb',
    encShiftIn_eq_append, Nat.add_sub_assoc (by decide)]

/-- R113, the rows of counts 2, 3 and 4. -/
theorem exec_encPush_twoSyms_fields (b : Byte) (hn : 2 ≤ n) :
    exec (.encPush b) s = .next { s with
      encCnt := BitVec.ofNat 3 (n - 2)
      encAcc := ((s.encAcc ++ b : Tmp).extractLsb' 0 (n - 2)).setWidth 4
      events := s.events ++
        [.encSym (encRom ((s.encAcc ++ b : Tmp).extractLsb' (n + 3) 5)),
         .encSym (encRom ((s.encAcc ++ b : Tmp).extractLsb' (n - 2) 5))] } := by
  subst hcnt
  have hlt := s.encCnt.isLt
  rw [exec_encPush_twoSyms b hn, keepLow_setWidth_eq_extractLsb' _ _ (by omega), takeSym_eq_extractLsb',
    takeSym_eq_extractLsb', encShiftIn_eq_append, Nat.add_sub_assoc (by decide),
    show s.encCnt.toNat + 3 - 5 = s.encCnt.toNat - 2 by omega]

end

/-- Settles O32: each row is the equation of its number of symbols at its count; where a row keeps four bits
or none, the widening to `enc_acc` disappears. -/
theorem encPushCaseByCase : Obligations.EncPushCaseByCase := by
  intro b s _ t sym
  refine ⟨fun h => ?_, fun h => ?_, fun h => ?_, fun h => ?_, fun h => ?_⟩
  · exact exec_encPush_oneSym_fields (n := 0) (congrArg BitVec.toNat h) b (by decide)
  · rw [exec_encPush_oneSym_fields (n := 1) (congrArg BitVec.toNat h) b (by decide), BitVec.setWidth_eq]
    rfl
  · rw [exec_encPush_twoSyms_fields (n := 2) (congrArg BitVec.toNat h) b (by decide),
      BitVec.of_length_zero (x := BitVec.extractLsb' 0 0 _)]
    rfl
  · exact exec_encPush_twoSyms_fields (n := 3) (congrArg BitVec.toNat h) b (by decide)
  · exact exec_encPush_twoSyms_fields (n := 4) (congrArg BitVec.toNat h) b (by decide)

/-! ### The count of a sequence of pushes -/

@[simp] theorem encSyms_encSym (code : Byte) : encSyms [.encSym code] = [code] := rfl

/-- One push adds 8 to the buffered bits and sends them by fives. -/
theorem encPushState_count (b : Byte) {s : State} (h : s.encCnt.toNat < 5) :
    (encPushState b s).encCnt.toNat = (s.encCnt.toNat + 8) % 5 ∧
      (encSyms (encPushState b s).events).length =
        (encSyms s.events).length + (s.encCnt.toNat + 8) / 5 := by
  rcases Nat.lt_or_ge s.encCnt.toNat 2 with hn | hn
  · rw [encPushState_oneSym b hn]
    constructor
    · rw [State.setEnc_encCnt, BitVec.toNat_ofNat]
      omega
    · simp only [State.setEnc_events, State.emit_events, encSyms_append, encSyms_encSym, List.length_append,
        List.length_singleton]
      omega
  · rw [encPushState_twoSyms b hn]
    constructor
    · rw [State.setEnc_encCnt, BitVec.toNat_ofNat]
      omega
    · simp only [State.setEnc_events, State.emit_events, encSyms_append, encSyms_encSym, List.length_append,
        List.length_singleton]
      omega

/-- R114 from any count below 5: of the bits buffered and pushed, the remainder by 5 stays buffered and the
quotient is sent as symbols. -/
theorem encPushes_count (bs : List Byte) {s : State} (h : s.encCnt.toNat < 5) :
    (afterAll (bs.map Instr.encPush) s).encCnt.toNat = (s.encCnt.toNat + 8 * bs.length) % 5 ∧
      (encSyms (afterAll (bs.map Instr.encPush) s).events).length =
        (encSyms s.events).length + (s.encCnt.toNat + 8 * bs.length) / 5 := by
  induction bs generalizing s with
  | nil =>
    rw [List.map_nil, afterAll_nil, List.length_nil]
    omega
  | cons b bs ih =>
    obtain ⟨hcnt, hsyms⟩ := encPushState_count b h
    obtain ⟨hcnts, hsymss⟩ := ih (s := encPushState b s) (by omega)
    rw [List.map_cons, afterAll_cons, after, hcnts, hsymss, hcnt, hsyms, List.length_cons]
    omega

/-- Settles O35: from an idle encoder the count starts at 0, and 8 and 3 agree modulo 5. -/
theorem encoderCountRunsWithPeriodFive : Obligations.EncoderCountRunsWithPeriodFive := by
  intro bs s ⟨_, hidle⟩
  have hzero : s.encCnt.toNat = 0 := congrArg BitVec.toNat hidle
  obtain ⟨hcnt, hsyms⟩ := encPushes_count bs (s := s) (by omega)
  rw [hzero, Nat.zero_add] at hcnt hsyms
  exact ⟨_, run_eq_afterAll _ s, hcnt, by omega, hsyms⟩

end Sys2Proof.Machine
end

section
/-! The decoder commands (spec/41_decoder.md R130 to R135, spec/60_exceptions.md R201, R202, R210): what each
answers, as one update of the state it starts in, then the transient value's slices as numbers (R130) and as
bit fields of `{dec_acc, v}` (R134), the count that a sequence of pushes runs through (R135), and how long the
error condition lasts (R210). -/

namespace Sys2Proof.Machine

/-! ### What each command answers -/

/-- Settles O38: a latched error makes `DEC_PUSH` ignore its character. -/
theorem decPushIsIgnoredAfterAnError : Obligations.DecPushIsIgnoredAfterAnError := by
  intro c s herr
  rw [exec_eq_after, after, decPushState_ignored c herr]

section
variable {s : State} {c : Byte} (herr : s.decErr = false)
include herr

/-- R201: an invalid character latches the error. -/
theorem exec_decPush_invalid (hc : validChar c = false) :
    exec (.decPush c) s = .next { s with decErr := true, decErrPos := s.decPos, decErrChar := c } := by
  rw [exec_eq_after, after, decPushState_invalid c herr hc]
  rfl

/-- R130 from a count of 0, 1 or 2: the push completes no byte. -/
theorem exec_decPush_noByte (hc : validChar c = true) (hn : s.decCnt.toNat < 3) :
    exec (.decPush c) s = .next { s with
      decCnt := BitVec.ofNat 3 (s.decCnt.toNat + 5)
      decAcc := (keepLow (decShiftIn s.decAcc (charValue c)) (s.decCnt.toNat + 5)).setWidth 7
      decPos := (s.decPos + 1) % 2 ^ s.params.posW } := by
  rw [exec_eq_after, after, decPushState_noByte c herr hc hn]
  rfl

/-- R130 from a count of 3 or more: the push completes a byte. -/
theorem exec_decPush_byte (hc : validChar c = true) (hn : 3 ≤ s.decCnt.toNat) :
    exec (.decPush c) s = .next { s with
      decCnt := BitVec.ofNat 3 (s.decCnt.toNat - 3)
      decAcc := (keepLow (decShiftIn s.decAcc (charValue c)) (s.decCnt.toNat - 3)).setWidth 7
      decPos := (s.decPos + 1) % 2 ^ s.params.posW
      events := s.events ++
        [.decByte (takeByte (decShiftIn s.decAcc (charValue c)) (s.decCnt.toNat + 5))] } := by
  rw [exec_eq_after, after, decPushState_byte c herr hc hn]
  rfl

end

/-- R132: `DEC_END` emits its verdict and returns the decoder to idle. -/
theorem exec_decEnd_of_verdict {s : State} {e : OutEvent} (d : Byte) (h : decVerdict s = s.emit e) :
    exec (.decEnd d) s = .next (s.emit e).clearDec := by
  rw [exec_eq_after, after, h]

/-- Settles O39: the branches are a latched error, left-over bits that fail the padding test, and neither. -/
theorem decEndReportsTheVerdict : Obligations.DecEndReportsTheVerdict := by
  intro d s idle
  refine ⟨fun herr => ?_, fun herr hstrict hcnt hacc => ?_, fun herr hok => ?_⟩
  · exact exec_decEnd_of_verdict d (decVerdict_error herr)
  · exact exec_decEnd_of_verdict d (decVerdict_pad herr ((padFault_iff s).mpr ⟨hstrict, hcnt, hacc⟩))
  · have hpad : s.padFault = false := by
      rw [← Bool.not_eq_true, padFault_iff]
      rintro ⟨hstrict, hcnt, hacc⟩
      rcases hok with hlenient | hzero | hzero
      · simp [hlenient] at hstrict
      · simp [hzero] at hcnt
      · exact hacc hzero
    exact exec_decEnd_of_verdict d (decVerdict_ok herr hpad)

/-- Settles O40: `clearDec` writes the six decoder registers and nothing else. -/
theorem decClrReturnsTheDecoderToIdle : Obligations.DecClrReturnsTheDecoderToIdle :=
  fun d => exec_eq_after (.decClr d)

/-! ### In exact arithmetic -/

/-- Settles O36: beside the invalid character, the branches are the counts below 3 and from 3 on, and each
slice of the transient value is a quotient or a remainder of it. -/
theorem decPushFollowsThePseudocode : Obligations.DecPushFollowsThePseudocode := by
  intro c s _ herr t n
  refine ⟨exec_decPush_invalid herr, fun hc hn => ?_, fun hc hn => ?_⟩
  · rw [exec_decPush_noByte herr hc (by omega), keepLow_setWidth_seven _ _ (by omega), decShiftIn_toNat]
  · have hlt := s.decCnt.isLt
    have hrest : n - 8 = s.decCnt.toNat - 3 := by omega
    rw [exec_decPush_byte herr hc (by omega), keepLow_setWidth_seven _ _ (by omega), takeByte_eq_ofNat,
      decShiftIn_toNat, hrest]

/-! ### By bit fields -/

/-- R134: the transient value is the buffered bits beside the character's value. -/
theorem decShiftIn_eq_append (acc : BitVec 7) (v : Sym) : decShiftIn acc v = acc ++ v := by
  apply BitVec.eq_of_toNat_eq
  rw [decShiftIn_toNat, BitVec.toNat_append, shiftLeft_or_eq_add _ _ 5 v.isLt]

theorem takeByte_eq_extractLsb' (t : Tmp) (n : Nat) : takeByte t n = t.extractLsb' (n - 8) 8 := by
  apply BitVec.eq_of_toNat_eq
  rw [takeByte_toNat, BitVec.extractLsb'_toNat, Nat.shiftRight_eq_div_pow]

section
variable {s : State} {c : Byte} {n : Nat} (herr : s.decErr = false) (hc : validChar c = true)
  (hcnt : s.decCnt.toNat = n)
include herr hc hcnt

/-- R134, the rows of counts 0, 1 and 2. -/
theorem exec_decPush_noByte_fields (hn : n < 3) :
    exec (.decPush c) s = .next { s with
      decCnt := BitVec.ofNat 3 (n + 5)
      decAcc := ((s.decAcc ++ charValue c : Tmp).extractLsb' 0 (n + 5)).setWidth 7
      decPos := (s.decPos + 1) % 2 ^ s.params.posW } := by
  subst hcnt
  rw [exec_decPush_noByte herr hc hn, keepLow_setWidth_eq_extractLsb' _ _ (by omega), decShiftIn_eq_append]

/-- R134, the rows of counts 3 to 7. -/
theorem exec_decPush_byte_fields (hn : 3 ≤ n) :
    exec (.decPush c) s = .next { s with
      decCnt := BitVec.ofNat 3 (n - 3)
      decAcc := ((s.decAcc ++ charValue c : Tmp).extractLsb' 0 (n - 3)).setWidth 7
      decPos := (s.decPos + 1) % 2 ^ s.params.posW
      events := s.events ++ [.decByte ((s.decAcc ++ charValue c : Tmp).extractLsb' (n - 3) 8)] } := by
  subst hcnt
  have hlt := s.decCnt.isLt
  rw [exec_decPush_byte herr hc hn, keepLow_setWidth_eq_extractLsb' _ _ (by omega), takeByte_eq_extractLsb',
    decShiftIn_eq_append, show s.decCnt.toNat + 5 - 8 = s.decCnt.toNat - 3 by omega]

end

/-- Settles O37: each row is the equation for a byte or none at its count; where a row keeps seven bits or
none, the widening to `dec_acc` disappears. -/
theorem decPushCaseByCase : Obligations.DecPushCaseByCase := by
  intro c s _ herr hc t pos
  refine ⟨fun h => ?_, fun h => ?_, fun h => ?_, fun h => ?_, fun h => ?_, fun h => ?_, fun h => ?_,
    fun h => ?_⟩
  · exact exec_decPush_noByte_fields (n := 0) herr hc (congrArg BitVec.toNat h) (by decide)
  · exact exec_decPush_noByte_fields (n := 1) herr hc (congrArg BitVec.toNat h) (by decide)
  · rw [exec_decPush_noByte_fields (n := 2) herr hc (congrArg BitVec.toNat h) (by decide),
      BitVec.setWidth_eq]
    rfl
  · rw [exec_decPush_byte_fields (n := 3) herr hc (congrArg BitVec.toNat h) (by decide),
      BitVec.of_length_zero (x := BitVec.extractLsb' 0 0 _)]
    rfl
  · exact exec_decPush_byte_fields (n := 4) herr hc (congrArg BitVec.toNat h) (by decide)
  · exact exec_decPush_byte_fields (n := 5) herr hc (congrArg BitVec.toNat h) (by decide)
  · exact exec_decPush_byte_fields (n := 6) herr hc (congrArg BitVec.toNat h) (by decide)
  · exact exec_decPush_byte_fields (n := 7) herr hc (congrArg BitVec.toNat h) (by decide)

/-! ### The count of a sequence of pushes -/

@[simp] theorem decBytes_decByte (b : Byte) : decBytes [.decByte b] = [b] := rfl

/-- One push of a valid character adds 5 to the buffered bits and sends them by eights. -/
theorem decPushState_count {c : Byte} {s : State} (herr : s.decErr = false) (hc : validChar c = true) :
    (decPushState c s).decErr = false ∧
      (decPushState c s).decCnt.toNat = (s.decCnt.toNat + 5) % 8 ∧
      (decBytes (decPushState c s).events).length =
        (decBytes s.events).length + (s.decCnt.toNat + 5) / 8 := by
  have hlt := s.decCnt.isLt
  rcases Nat.lt_or_ge s.decCnt.toNat 3 with hn | hn
  · rw [decPushState_noByte c herr hc hn]
    refine ⟨herr, ?_, ?_⟩
    · rw [State.setDec_decCnt, BitVec.toNat_ofNat]
    · rw [State.setDec_events, Nat.div_eq_of_lt (by omega), Nat.add_zero]
  · rw [decPushState_byte c herr hc hn]
    refine ⟨herr, ?_, ?_⟩
    · rw [State.setDec_decCnt, BitVec.toNat_ofNat]
      omega
    · rw [State.setDec_events, State.emit_events, decBytes_append, decBytes_decByte, List.length_append,
        List.length_singleton]
      omega

/-- R135 from any count: of the bits buffered and pushed, the remainder by 8 stays buffered and the quotient
is sent as bytes. -/
theorem decPushes_count (cs : List Byte) {s : State} (herr : s.decErr = false)
    (hcs : ∀ c ∈ cs, validChar c = true) :
    (afterAll (cs.map Instr.decPush) s).decCnt.toNat = (s.decCnt.toNat + 5 * cs.length) % 8 ∧
      (decBytes (afterAll (cs.map Instr.decPush) s).events).length =
        (decBytes s.events).length + (s.decCnt.toNat + 5 * cs.length) / 8 := by
  induction cs generalizing s with
  | nil =>
    have hlt := s.decCnt.isLt
    rw [List.map_nil, afterAll_nil, List.length_nil]
    omega
  | cons c cs ih =>
    obtain ⟨hc, hcs⟩ := List.forall_mem_cons.mp hcs
    obtain ⟨herr', hcnt, hbytes⟩ := decPushState_count herr hc
    obtain ⟨hcnts, hbytess⟩ := ih herr' hcs
    rw [List.map_cons, afterAll_cons, after, hcnts, hbytess, hcnt, hbytes, List.length_cons]
    omega

/-- Settles O41: from an idle decoder the count starts at 0. -/
theorem decoderCountRunsWithPeriodEight : Obligations.DecoderCountRunsWithPeriodEight := by
  intro cs s ⟨_, hidle, _, herr, _⟩ hcs
  have hzero : s.decCnt.toNat = 0 := congrArg BitVec.toNat hidle
  have hcount := decPushes_count cs herr hcs
  rw [hzero, Nat.zero_add] at hcount
  exact ⟨_, run_eq_afterAll _ s, hcount⟩

/-! ### The error condition -/

theorem State.sameDec_refl (s : State) : s.SameDec s := ⟨rfl, rfl, rfl, rfl, rfl, rfl⟩

/-- R210, for one command: in the error condition only `DEC_END` and `DEC_CLR` touch the decoder. -/
theorem after_keeps_error {i : Instr} {s : State} (herr : s.decErr = true) (hend : ∀ d, i ≠ .decEnd d)
    (hclr : ∀ d, i ≠ .decClr d) :
    s.SameDec (after i s) ∧ eventsOfHalf .decoder (after i s).events = eventsOfHalf .decoder s.events := by
  have henc (h : i.half = .encoder) :
      s.SameDec (after i s) ∧
        eventsOfHalf .decoder (after i s).events = eventsOfHalf .decoder s.events := by
    refine ⟨(after_encoder_frame h s).1, ?_⟩
    rw [after_events, eventsOfHalf_append, eventsOfHalf_after_of_ne (by simp [h]), List.append_nil]
  cases i with
  | nop d => exact ⟨s.sameDec_refl, rfl⟩
  | encPush b => exact henc rfl
  | encEnd d => exact henc rfl
  | encClr d => exact henc rfl
  | illegal100 d => exact ⟨s.sameDec_refl, rfl⟩
  | decPush c =>
    rw [after, decPushState_ignored c herr]
    exact ⟨s.sameDec_refl, rfl⟩
  | decEnd d => exact absurd rfl (hend d)
  | decClr d => exact absurd rfl (hclr d)

/-- R210, for a command sequence. -/
theorem afterAll_keeps_error (is : List Instr) {s : State} (herr : s.decErr = true)
    (his : ∀ i ∈ is, (∀ d, i ≠ .decEnd d) ∧ (∀ d, i ≠ .decClr d)) :
    s.SameDec (afterAll is s) ∧
      eventsOfHalf .decoder (afterAll is s).events = eventsOfHalf .decoder s.events := by
  induction is generalizing s with
  | nil => exact ⟨s.sameDec_refl, rfl⟩
  | cons i is ih =>
    obtain ⟨⟨hend, hclr⟩, his⟩ := List.forall_mem_cons.mp his
    obtain ⟨⟨hacc, hcnt, hpos, herr', herrPos, herrChar⟩, hev⟩ := after_keeps_error herr hend hclr
    have hrest := ih (herr'.trans herr) his
    rwa [State.SameDec, hacc, hcnt, hpos, herr', herrPos, herrChar, hev] at hrest

theorem State.clearDec_decIdle (s : State) : s.clearDec.DecIdle := ⟨rfl, rfl, rfl, rfl, rfl, rfl⟩

/-- Settles O42: the sequence keeps the error condition, and `DEC_END` and `DEC_CLR` both end with
`clearDec`. -/
theorem errorConditionLastsUntilEndOrClr : Obligations.ErrorConditionLastsUntilEndOrClr := by
  intro is s d herr his
  obtain ⟨hdec, hev⟩ := afterAll_keeps_error is herr his
  exact ⟨_, _, _, run_eq_afterAll is s, hdec, hev, exec_eq_after (.decEnd d) _, State.clearDec_decIdle _,
    exec_eq_after (.decClr d) _, State.clearDec_decIdle _⟩

end Sys2Proof.Machine
end

section
/-! The control commands (spec/42_control.md R160, R161, R164): `NOP` anywhere in a command sequence, the
reserved opcode, and the cycle with no command, which is a `NOP`'s cycle. -/

namespace Sys2Proof.Machine

/-! ### `NOP` in a command sequence -/

/-- Commands that change no state may be left out of a sequence. -/
theorem afterAll_filter {p : Instr → Bool} (hp : ∀ i, p i = false → ∀ s, after i s = s) (is : List Instr)
    (s : State) : afterAll (is.filter p) s = afterAll is s := by
  induction is generalizing s with
  | nil => rfl
  | cons i is ih =>
    cases hi : p i with
    | true => rw [List.filter_cons_of_pos hi, afterAll_cons, afterAll_cons, ih]
    | false => rw [List.filter_cons_of_neg (by simp [hi]), ih, afterAll_cons, hp i hi]

/-- Settles O29: a command that the filter drops is a `NOP`, which leaves the state it starts in. -/
theorem nopsDoNotMatter : Obligations.NopsDoNotMatter := by
  refine ⟨fun d => exec_eq_after (.nop d), fun is s => ?_⟩
  rw [run_eq_afterAll, run_eq_afterAll, afterAll_filter]
  intro i hi t
  obtain ⟨d, rfl⟩ : ∃ d, i = .nop d := by simpa using hi
  rfl

/-! ### The cycle with no command -/

/-- Settles O8: the idle cycle and the `NOP` cycle both latch the outputs of the state with its event list
emptied. -/
theorem idleCycleActsAsNop : Obligations.IdleCycleActsAsNop := by
  intro w d s
  exact ⟨_, cycle_of_idle s rfl rfl, by simp, by simp, by simp, by simp, cycle_present_encode (.nop d) s⟩

/-! ### The reserved opcode -/

/-- Settles O30: `setIllCmd` writes the one flag and nothing else. -/
theorem illegalCommandSetsOnlyTheFlag : Obligations.IllegalCommandSetsOnlyTheFlag :=
  fun d => exec_eq_after (.illegal100 d)

end Sys2Proof.Machine
end

section
/-! Messages with other commands in between (spec/43_messages_and_laws.md R170 to R174): of a command sequence
a half sees its own commands only, and a half's commands do turn by turn what the document's functions with an
unbounded accumulator do. -/

namespace Sys2Proof.Machine

/-! ### The commands of one half in a command sequence -/

/-- The commands of one half, in program order. -/
def commandsOfHalf (h : Half) (is : List Instr) : List Instr := is.filter (fun i => decide (i.half = h))

theorem commandsOfHalf_cons_of_eq {i : Instr} {h : Half} (hi : i.half = h) (is : List Instr) :
    commandsOfHalf h (i :: is) = i :: commandsOfHalf h is :=
  List.filter_cons_of_pos (by simp [hi])

theorem commandsOfHalf_cons_of_ne {i : Instr} {h : Half} (hi : i.half ≠ h) (is : List Instr) :
    commandsOfHalf h (i :: is) = commandsOfHalf h is :=
  List.filter_cons_of_neg (by simp [hi])

theorem eventsOfHalf_eq_self {h : Half} {es : List OutEvent} (hes : ∀ e ∈ es, e.half = h) :
    eventsOfHalf h es = es := by
  simpa [eventsOfHalf] using hes

/-- A relation that the commands of a half keep, emitting the same events, and that no other command on the
right disturbs, relates a run of that half's commands alone to a run of the whole sequence. -/
theorem afterAll_commandsOfHalf {h : Half} {R : State → State → Prop}
    (hown : ∀ {i : Instr} {s s' : State}, i.half = h → R s s' →
      R (after i s) (after i s') ∧ (after i s'.beginStep).events = (after i s.beginStep).events)
    (hother : ∀ {i : Instr} {s s' : State}, i.half ≠ h → R s s' → R s (after i s'))
    (is : List Instr) {s s' : State} (hs : R s s') :
    R (afterAll (commandsOfHalf h is) s) (afterAll is s') ∧
      eventsOfHalf h (stepEvents is s').flatten = (stepEvents (commandsOfHalf h is) s).flatten := by
  induction is generalizing s s' with
  | nil => exact ⟨hs, rfl⟩
  | cons i is ih =>
    rw [afterAll_cons, stepEvents, List.flatten_cons, eventsOfHalf_append]
    by_cases hi : i.half = h
    · obtain ⟨hnext, hev⟩ := hown hi hs
      obtain ⟨hrun, hevs⟩ := ih hnext
      have hself : eventsOfHalf h (after i s'.beginStep).events = (after i s'.beginStep).events :=
        eventsOfHalf_eq_self fun e he => (half_of_mem_after_events i s' e he).trans hi
      rw [commandsOfHalf_cons_of_eq hi, afterAll_cons, stepEvents, List.flatten_cons, hself, hev, hevs]
      exact ⟨hrun, rfl⟩
    · rw [commandsOfHalf_cons_of_ne hi, eventsOfHalf_after_of_ne hi, List.nil_append]
      exact ih (hother hi hs)

/-- R25: only encoder commands write the encoder registers. -/
theorem after_sameEnc_of_ne {i : Instr} (hi : i.half ≠ .encoder) (s : State) : s.SameEnc (after i s) := by
  have hdec (h : i.half = .decoder) := (after_decoder_frame h s).1
  cases i with
  | nop d => exact ⟨rfl, rfl⟩
  | illegal100 d => exact ⟨rfl, rfl⟩
  | decPush c => exact hdec rfl
  | decEnd d => exact hdec rfl
  | decClr d => exact hdec rfl
  | _ => exact absurd rfl hi

/-- R25: only decoder commands write the decoder registers. -/
theorem after_sameDec_of_ne {i : Instr} (hi : i.half ≠ .decoder) (s : State) : s.SameDec (after i s) := by
  have henc (h : i.half = .encoder) := (after_encoder_frame h s).1
  cases i with
  | nop d => exact s.sameDec_refl
  | illegal100 d => exact s.sameDec_refl
  | encPush b => exact henc rfl
  | encEnd d => exact henc rfl
  | encClr d => exact henc rfl
  | _ => exact absurd rfl hi

/-- R68 for the encoder: a command sequence does to the encoder what its encoder commands do alone. -/
theorem afterAll_encoder (is : List Instr) (s : State) :
    (afterAll (commandsOfHalf .encoder is) s).SameEnc (afterAll is s) ∧
      eventsOfHalf .encoder (stepEvents is s).flatten =
        (stepEvents (commandsOfHalf .encoder is) s).flatten := by
  refine afterAll_commandsOfHalf (R := State.SameEnc) ?_ ?_ is ⟨rfl, rfl⟩
  · intro i s s' hi hs
    rw [after_of_half_encoder hi hs, after_of_half_encoder (s := s) (s' := s'.beginStep) hi hs]
    exact ⟨⟨rfl, rfl⟩, rfl⟩
  · intro i s s' hi ⟨hacc, hcnt⟩
    obtain ⟨hacc', hcnt'⟩ := after_sameEnc_of_ne hi s'
    exact ⟨hacc'.trans hacc, hcnt'.trans hcnt⟩

/-- The decoder registers are equal, and so is what else a decoder command reads (R25). -/
def State.SameDecoder (s t : State) : Prop := s.SameDec t ∧ t.params = s.params

/-- R68 for the decoder: a command sequence does to the decoder what its decoder commands do alone. -/
theorem afterAll_decoder (is : List Instr) (s : State) :
    (afterAll (commandsOfHalf .decoder is) s).SameDecoder (afterAll is s) ∧
      eventsOfHalf .decoder (stepEvents is s).flatten =
        (stepEvents (commandsOfHalf .decoder is) s).flatten := by
  refine afterAll_commandsOfHalf (R := State.SameDecoder) ?_ ?_ is ⟨s.sameDec_refl, rfl⟩
  · intro i s s' hi ⟨hs, hp⟩
    rw [State.SameDecoder, after_params, after_params, after_of_half_decoder hi hs hp,
      after_of_half_decoder (s := s) (s' := s'.beginStep) hi hs hp]
    exact ⟨⟨⟨rfl, rfl, rfl, rfl, rfl, rfl⟩, hp⟩, rfl⟩
  · intro i s s' hi ⟨⟨hacc, hcnt, hpos, herr, herrPos, herrChar⟩, hp⟩
    obtain ⟨hacc', hcnt', hpos', herr', herrPos', herrChar'⟩ := after_sameDec_of_ne hi s'
    exact ⟨⟨hacc'.trans hacc, hcnt'.trans hcnt, hpos'.trans hpos, herr'.trans herr,
      herrPos'.trans herrPos, herrChar'.trans herrChar⟩, (after_params i s').trans hp⟩

/-- The events a run adds are those of its steps. -/
theorem stepEvents_of_afterAll_events {is : List Instr} {s : State} {es : List OutEvent}
    (h : (afterAll is s).events = s.events ++ es) : (stepEvents is s).flatten = es :=
  List.append_cancel_left ((afterAll_events is s).symm.trans h)

/-! ### The encode message -/

/-- R172, turn by turn: from registers that track the reference's accumulator, an encode message sends what
the rest of the reference's run appends, and the end marker. -/
theorem encodeMessage_events (bs : List Byte) (d : Byte) {s : State} {acc n : Nat} (h : EncTracks s acc n) :
    (afterAll (bs.map Instr.encPush ++ [.encEnd d]) s).events =
      s.events ++ (encodeRefFrom bs acc n).map OutEvent.encSym ++ [.encEnd] := by
  induction bs generalizing s acc n with
  | nil => exact encEnd_tracks h
  | cons b bs ih =>
    obtain ⟨hev, htr⟩ := encPush_tracks h b
    rw [List.map_cons, List.cons_append, afterAll_cons, after, ih htr, hev, encodeRefFrom]
    simp

theorem encEndState_encIdle (s : State) : (encEndState s).EncIdle := by
  rcases Nat.eq_zero_or_pos s.encCnt.toNat with hn | hn
  · rw [encEndState_boundary hn]
    exact ⟨rfl, rfl⟩
  · rw [encEndState_partial hn]
    exact ⟨rfl, rfl⟩

theorem encodeMessage_encIdle (bs : List Byte) (d : Byte) (s : State) :
    (afterAll (bs.map Instr.encPush ++ [.encEnd d]) s).EncIdle := by
  rw [afterAll_append]
  exact encEndState_encIdle _

/-- Settles O46: the encoder sees the message alone, whose events are the reference's, by induction over the
bytes. -/
theorem interleavedEncodeMessageGivesEncodeRef : Obligations.InterleavedEncodeMessageGivesEncodeRef := by
  intro bs d is s hidle his
  obtain ⟨⟨hacc, hcnt⟩, hev⟩ := afterAll_encoder is s
  have hmsg : commandsOfHalf .encoder is = bs.map Instr.encPush ++ [.encEnd d] := his
  rw [hmsg] at hacc hcnt hev
  obtain ⟨hacc0, hcnt0⟩ := encodeMessage_encIdle bs d s
  have hsent : (stepEvents (bs.map Instr.encPush ++ [.encEnd d]) s).flatten =
      (encodeRef bs).map OutEvent.encSym ++ [.encEnd] := by
    apply stepEvents_of_afterAll_events
    rw [encodeMessage_events bs d (EncTracks.of_idle hidle), encodeRef, List.append_assoc]
  refine ⟨afterAll is s, run_eq_afterAll is s, ⟨hacc.trans hacc0, hcnt.trans hcnt0⟩, ?_⟩
  rw [afterAll_events, eventsOfHalf_append, hev, hsent, List.append_assoc]

/-! ### The decode message -/

/-- R131: in the error condition characters change nothing. -/
theorem decPushes_ignored (cs : List Byte) {s : State} (herr : s.decErr = true) :
    afterAll (cs.map Instr.decPush) s = s := by
  induction cs with
  | nil => rfl
  | cons c cs ih => rw [List.map_cons, afterAll_cons, after, decPushState_ignored c herr, ih]

/-- The verdict on the reference's left-over bits is the reference's own (R132, R173). -/
theorem decVerdict_tracks {s : State} {i acc n : Nat} (h : DecTracks s i acc n) :
    ∃ st pos c, decVerdict s = s.emit (.decEnd st pos c) ∧ ∀ out,
      resultOf out st pos c =
        (decodeRefFrom s.params.strictPad [] i acc n out).wrapPos s.params.posW := by
  cases hp : s.padFault with
  | true =>
    refine ⟨_, _, _, decVerdict_pad h.err hp, fun out => ?_⟩
    rw [decodeRefFrom, if_pos ((padFault_tracks h).mp hp), h.pos]
    rfl
  | false =>
    refine ⟨_, _, _, decVerdict_ok h.err hp, fun out => ?_⟩
    rw [decodeRefFrom, if_neg (mt (padFault_tracks h).mpr (by simp [hp]))]
    rfl

/-- R173, turn by turn: from registers that track the reference's accumulator, a decode message adds events
whose result is that of the rest of the reference's run, positions modulo 2^`POS_W`. -/
theorem decodeMessage_events (cs : List Byte) (d : Byte) {s : State} {i acc n : Nat}
    (h : DecTracks s i acc n) :
    ∃ es, (afterAll (cs.map Instr.decPush ++ [.decEnd d]) s).events = s.events ++ es ∧ ∀ out,
      decodeResultFrom out es =
        some ((decodeRefFrom s.params.strictPad cs i acc n out).wrapPos s.params.posW) := by
  induction cs generalizing s i acc n with
  | nil =>
    obtain ⟨st, pos, c, hv, hres⟩ := decVerdict_tracks h
    refine ⟨[.decEnd st pos c], ?_, fun out => ?_⟩
    · rw [List.map_nil, List.nil_append, afterAll_cons, after, hv]
      rfl
    · rw [decodeResultFrom, hres]
  | cons c cs ih =>
    have hparams : (decPushState c s).params = s.params := after_params (.decPush c) s
    rw [List.map_cons, List.cons_append, afterAll_cons, after]
    cases hc : validChar c with
    | true =>
      obtain ⟨hshort, hfull⟩ := decPush_tracks h hc
      rcases Nat.lt_or_ge (n + 5) 8 with h8 | h8
      · obtain ⟨hev, htr⟩ := hshort h8
        obtain ⟨es, hes, hres⟩ := ih htr
        rw [hparams] at hres
        refine ⟨es, by rw [hes, hev], fun out => ?_⟩
        rw [hres, decodeRefFrom, if_pos hc, if_neg (by omega)]
      · obtain ⟨hev, htr⟩ := hfull h8
        obtain ⟨es, hes, hres⟩ := ih htr
        rw [hparams] at hres
        refine ⟨_ :: es, by rw [hes, hev, List.append_assoc, List.singleton_append], fun out => ?_⟩
        rw [decodeResultFrom, hres, decodeRefFrom, if_pos hc, if_pos h8]
    | false =>
      have herr : (s.latchErr s.decPos c).decErr = true := rfl
      refine ⟨[.decEnd .invalidChar s.decPos c], ?_, fun out => ?_⟩
      · rw [decPushState_invalid c h.err hc, afterAll_append, decPushes_ignored cs herr, afterAll_cons,
          after, decVerdict_error herr]
        rfl
      · rw [decodeResultFrom, decodeRefFrom, if_neg (by simp [hc]), h.pos]
        rfl

theorem decodeMessage_decIdle (cs : List Byte) (d : Byte) (s : State) :
    (afterAll (cs.map Instr.decPush ++ [.decEnd d]) s).DecIdle := by
  rw [afterAll_append]
  exact State.clearDec_decIdle _

/-- The result of a decode message is read from the events of the decoder half. -/
theorem decodeResultFrom_eventsOfHalf (out : List Byte) (es : List OutEvent) :
    decodeResultFrom out (eventsOfHalf .decoder es) = decodeResultFrom out es := by
  induction es generalizing out with
  | nil => rfl
  | cons e es ih =>
    cases e with
    | encSym code => exact ih out
    | encEnd => exact ih out
    | decByte b => exact ih (out ++ [b])
    | decEnd st pos c => rfl

/-- Settles O47: the decoder sees the message alone, whose result is the reference's, by induction over the
characters. -/
theorem interleavedDecodeMessageGivesDecodeRef : Obligations.InterleavedDecodeMessageGivesDecodeRef := by
  intro cs d is s hidle his
  obtain ⟨⟨⟨hacc, hcnt, hpos, herr, herrPos, herrChar⟩, -⟩, hev⟩ := afterAll_decoder is s
  have hmsg : commandsOfHalf .decoder is = cs.map Instr.decPush ++ [.decEnd d] := his
  rw [hmsg] at hacc hcnt hpos herr herrPos herrChar hev
  obtain ⟨hacc0, hcnt0, hpos0, herr0, herrPos0, herrChar0⟩ := decodeMessage_decIdle cs d s
  obtain ⟨es, hes, hres⟩ := decodeMessage_events cs d (DecTracks.of_idle hidle)
  refine ⟨afterAll is s, (stepEvents is s).flatten, run_eq_afterAll is s,
    ⟨hacc.trans hacc0, hcnt.trans hcnt0, hpos.trans hpos0, herr.trans herr0, herrPos.trans herrPos0,
      herrChar.trans herrChar0⟩, afterAll_events is s, ?_⟩
  rw [decodeResult, ← decodeResultFrom_eventsOfHalf, hev, stepEvents_of_afterAll_events hes, hres, decodeRef]

/-! ### The message functions -/

theorem encodeHw_eq_encodeRef (p : Params) (bs : List Byte) : encodeHw p bs = encodeRef bs := by
  have h : EncTracks (State.resetWith p) 0 0 := EncTracks.of_idle ⟨rfl, rfl⟩
  rw [encodeHw, eventsAfter_run, encodeProgram, encodeMessage_events bs 0x00 h]
  simp [encodeRef]

theorem decodeHw_eq_decodeRef_wrapPos (p : Params) (cs : List Byte) :
    decodeHw p cs = some ((decodeRef p.strictPad cs).wrapPos p.posW) := by
  have h : DecTracks (State.resetWith p) 0 0 0 := DecTracks.of_idle ⟨rfl, rfl, rfl, rfl, rfl, rfl⟩
  obtain ⟨es, hes, hres⟩ := decodeMessage_events cs 0x00 h
  rw [decodeHw, eventsAfter_run, decodeProgram, hes]
  exact hres []

/-- The reference reports no position beyond the characters it has taken. -/
theorem wrapPos_decodeRefFrom (strict : Bool) (posW : Nat) (cs : List Byte) {i : Nat} (acc n : Nat)
    (out : List Byte) (hlt : i + cs.length < 2 ^ posW) :
    (decodeRefFrom strict cs i acc n out).wrapPos posW = decodeRefFrom strict cs i acc n out := by
  induction cs generalizing i acc n out with
  | nil =>
    rw [decodeRefFrom]
    split
    · exact congrArg DecodeResult.nonzeroPad (Nat.mod_eq_of_lt hlt)
    · rfl
  | cons c cs ih =>
    rw [List.length_cons] at hlt
    have hnext : i + 1 + cs.length < 2 ^ posW := by omega
    simp only [decodeRefFrom]
    split_ifs
    · exact ih _ _ _ hnext
    · exact ih _ _ _ hnext
    · rw [DecodeResult.wrapPos, Nat.mod_eq_of_lt (by omega)]

/-- Settles O48: the message functions from reset, whose registers are idle; below 2^`POS_W` characters no
position wraps. -/
theorem hardwareAgreesWithTheReference : Obligations.HardwareAgreesWithTheReference := by
  intro p
  refine ⟨encodeHw_eq_encodeRef p, fun cs hlt => ?_, decodeHw_eq_decodeRef_wrapPos p⟩
  rw [decodeHw_eq_decodeRef_wrapPos, decodeRef, wrapPos_decodeRefFrom _ _ _ _ _ _ (by omega)]

end Sys2Proof.Machine
end

section
/-! The round trip and the lengths (spec/43_messages_and_laws.md R177 to R179, R189, R190): cutting a bit
string into groups and reading the groups back gives it again, so bytes and symbols carry the same bits; what
differs is the incomplete group at the end, padded with zeros or left over. -/

namespace Sys2Proof.Machine

/-! ### Groups and the words they spell -/

theorem bitsValue_injective {xs ys : List Bool} (hlen : xs.length = ys.length)
    (h : bitsValue xs = bitsValue ys) : xs = ys := by
  induction xs using List.reverseRecOn generalizing ys with
  | nil => exact (List.length_eq_zero_iff.mp hlen.symm).symm
  | append_singleton xs x ih =>
    obtain rfl | ⟨ys, y, rfl⟩ := List.eq_nil_or_concat ys
    · simp at hlen
    · rw [List.concat_eq_append] at hlen h ⊢
      rw [bitsValue_concat, bitsValue_concat] at h
      have hx := Bool.toNat_le x
      have hy := Bool.toNat_le y
      have hxy : x = y := by
        rw [Bool.eq_iff_iff, ← Bool.toNat_eq_one, ← Bool.toNat_eq_one]
        omega
      rw [ih (by simpa using hlen) (by omega), hxy]

/-- Zero bits are the only ones that spell 0. -/
theorem eq_replicate_false {bits : List Bool} (h : bitsValue bits = 0) :
    bits = List.replicate bits.length false :=
  bitsValue_injective (by simp) (by rw [h, bitsValue_replicate_false])

theorem valueOf_bitsOf (k : Nat) (x : BitVec k) : valueOf k (bitsOf k x) = x := by
  rw [valueOf_eq_ofNat, bitsValue_bitsOf, BitVec.ofNat_toNat, BitVec.setWidth_eq]

theorem bitsOf_valueOf {k : Nat} {bits : List Bool} (h : bits.length = k) :
    bitsOf k (valueOf k bits) = bits := by
  have hlt : bitsValue bits < 2 ^ k := h ▸ bitsValue_lt bits
  refine bitsValue_injective (by rw [length_bitsOf, h]) ?_
  rw [bitsValue_bitsOf, valueOf_eq_ofNat, BitVec.toNat_ofNat, Nat.mod_eq_of_lt hlt]

theorem length_flatMap_bitsOf {k : Nat} (xs : List (BitVec k)) :
    (xs.flatMap (bitsOf k)).length = k * xs.length := by
  simp [List.length_flatMap, Nat.mul_comm]

theorem length_groups (k m : Nat) (bits : List Bool) : (groups k m bits).length = m := by
  induction m generalizing bits with
  | zero => rfl
  | succ m ih => rw [groups, List.length_cons, ih]

theorem length_completeGroups (k : Nat) (bits : List Bool) :
    (completeGroups k bits).length = bits.length / k :=
  length_groups k _ bits

/-- The words of the first `m` groups spell the bits they were cut from. -/
theorem flatMap_bitsOf_groups {k m : Nat} {bits : List Bool} (h : m * k ≤ bits.length) :
    ((groups k m bits).map (valueOf k)).flatMap (bitsOf k) = bits.take (m * k) := by
  induction m generalizing bits with
  | zero => simp [groups]
  | succ m ih =>
    rw [Nat.succ_mul] at h
    rw [groups, List.map_cons, List.flatMap_cons, bitsOf_valueOf (by simp; omega),
      ih (by simp; omega), Nat.succ_mul, Nat.add_comm, List.take_add]

theorem flatMap_bitsOf_completeGroups (k : Nat) (bits : List Bool) :
    ((completeGroups k bits).map (valueOf k)).flatMap (bitsOf k) = bits.take (bits.length / k * k) :=
  flatMap_bitsOf_groups (Nat.div_mul_le_self _ _)

/-- The groups of a string that begins with words are those words. -/
theorem completeGroups_flatMap_bitsOf {k : Nat} (hk : 0 < k) (xs : List (BitVec k)) (more : List Bool) :
    (completeGroups k (xs.flatMap (bitsOf k) ++ more)).map (valueOf k) =
      xs ++ (completeGroups k more).map (valueOf k) := by
  induction xs with
  | nil => rfl
  | cons x xs ih =>
    have hlen : (bitsOf k x).length = k := length_bitsOf k x
    rw [List.flatMap_cons, List.append_assoc, completeGroups_of_le hk (by simp), List.take_left' hlen,
      List.drop_left' hlen, List.map_cons, valueOf_bitsOf, ih, List.cons_append]

/-! ### Lengths -/

theorem length_padToFive (bits : List Bool) : (padToFive bits).length = (bits.length + 4) / 5 * 5 := by
  rw [padToFive, List.length_append, List.length_replicate]
  omega

theorem length_packSyms (bits : List Bool) : (packSyms bits).length = (bits.length + 4) / 5 := by
  rw [packSyms, List.length_map, length_completeGroups, length_padToFive,
    Nat.mul_div_cancel _ (by decide)]

theorem length_packDecode (vs : List Sym) : (packDecode vs).length = 5 * vs.length / 8 := by
  rw [packDecode_eq_packBytes, packBytes, List.length_map, length_completeGroups, length_flatMap_bitsOf]

theorem encodeHw_eq_packSyms (p : Params) (bs : List Byte) :
    encodeHw p bs = packSyms (bs.flatMap (bitsOf 8)) := by
  rw [encodeHw_eq_packEncode, packEncode_eq_packSyms]

theorem length_encodeHw (p : Params) (bs : List Byte) :
    (encodeHw p bs).length = (8 * bs.length + 4) / 5 := by
  rw [encodeHw_eq_packSyms, length_packSyms, length_flatMap_bitsOf]

/-- Settles O51: the padded bits come in fives, and eight more bits for each byte leave five remainders. -/
theorem encodedLengthLaw : Obligations.EncodedLengthLaw := by
  intro p bs
  refine ⟨length_encodeHw p bs, ?_⟩
  rw [length_encodeHw]
  simp only [List.mem_cons, List.not_mem_nil, or_false]
  omega

/-- R178: valid characters send a byte for every complete eight bits. -/
theorem length_decBytes_decodeProgram (p : Params) {cs : List Byte} (hcs : ∀ c ∈ cs, validChar c = true) :
    (decBytes (eventsAfter (run (decodeProgram cs) (State.resetWith p)))).length = 5 * cs.length / 8 := by
  rw [decBytes_decodeProgram p hcs, length_packDecode, List.length_map]

/-- Settles O52: an accepted text has valid characters only, and its result is the bytes sent. -/
theorem decodedLengthLaw : Obligations.DecodedLengthLaw := by
  intro p cs
  refine ⟨fun ys h => ?_, length_decBytes_decodeProgram p⟩
  obtain ⟨hcs, rfl⟩ := decodeHw_eq_ok h
  exact length_decBytes_decodeProgram p hcs

/-! ### The bits left over -/

/-- The number spelled by the bits of a text after its last complete byte. -/
def leftOver (cs : List Byte) : Nat :=
  bitsValue ((cs.map charValue).flatMap (bitsOf 5)) % 2 ^ (5 * cs.length % 8)

@[simp] theorem afterAll_params (is : List Instr) (s : State) : (afterAll is s).params = s.params := by
  induction is generalizing s with
  | nil => rfl
  | cons i is ih => rw [afterAll_cons, ih, after_params]

/-- The decoder tracks the bits of all valid characters so far, of which it has still to send the remainder
by eight. -/
theorem decPushes_tracks (cs : List Byte) {s : State} {i n : Nat} {bits : List Bool}
    (h : DecTracks s i (bitsValue bits) n) (hcs : ∀ c ∈ cs, validChar c = true) :
    DecTracks (afterAll (cs.map Instr.decPush) s) (i + cs.length)
      (bitsValue (bits ++ (cs.map charValue).flatMap (bitsOf 5))) ((n + 5 * cs.length) % 8) := by
  have hn := h.lt
  induction cs generalizing s i n bits with
  | nil =>
    simpa [Nat.mod_eq_of_lt hn] using h
  | cons c cs ih =>
    obtain ⟨hc, hcs⟩ := List.forall_mem_cons.mp hcs
    obtain ⟨hshort, hfull⟩ := decPush_tracks h hc
    have hstep : DecTracks (decPushState c s) (i + 1) (bitsValue (bits ++ bitsOf 5 (charValue c)))
        ((n + 5) % 8) := by
      rw [bitsValue_append_bitsOf]
      rcases Nat.lt_or_ge (n + 5) 8 with h8 | h8
      · rw [Nat.mod_eq_of_lt h8]
        exact (hshort h8).2
      · rw [Nat.mod_eq_sub_mod h8, Nat.mod_eq_of_lt (by omega)]
        exact (hfull h8).2
    have hrest := ih hstep hcs (Nat.mod_lt _ (by decide))
    rwa [Nat.add_assoc, Nat.add_comm 1, List.append_assoc, Nat.mod_add_mod, Nat.add_assoc, Nat.add_comm 5,
      ← Nat.mul_succ] at hrest

/-- R132: with `STRICT_PAD` = 1 a text of valid characters is faulted exactly for its left-over bits. -/
theorem padFault_decPushes (p : Params) {cs : List Byte} (hcs : ∀ c ∈ cs, validChar c = true) :
    (afterAll (cs.map Instr.decPush) (State.resetWith p)).padFault = true ↔
      p.strictPad = true ∧ leftOver cs ≠ 0 := by
  have h : DecTracks (State.resetWith p) 0 (bitsValue []) 0 :=
    DecTracks.of_idle ⟨rfl, rfl, rfl, rfl, rfl, rfl⟩
  rw [padFault_tracks (decPushes_tracks cs h hcs), afterAll_params, Nat.and_two_pow_sub_one_eq_mod,
    Nat.zero_add, List.nil_append, ← leftOver]
  refine and_congr_right fun _ => and_iff_right_of_imp fun hne => ?_
  by_contra hzero
  exact hne (by rw [leftOver, Nat.eq_zero_of_not_pos hzero, Nat.pow_zero, Nat.mod_one])

theorem decErr_decPushes (p : Params) {cs : List Byte} (hcs : ∀ c ∈ cs, validChar c = true) :
    (afterAll (cs.map Instr.decPush) (State.resetWith p)).decErr = false := by
  rw [← Bool.not_eq_true, decPushes_decErr_iff]
  simpa using hcs

/-- R202: the position reported for the left-over bits is the length of the text. -/
theorem decodeHw_of_leftOver {p : Params} {cs : List Byte} (hcs : ∀ c ∈ cs, validChar c = true)
    (hstrict : p.strictPad = true) (hleft : leftOver cs ≠ 0) :
    decodeHw p cs = some (.nonzeroPad (cs.length % 2 ^ p.posW)) := by
  have h : DecTracks (State.resetWith p) 0 (bitsValue []) 0 :=
    DecTracks.of_idle ⟨rfl, rfl, rfl, rfl, rfl, rfl⟩
  have hpad := (padFault_decPushes p hcs).mpr ⟨hstrict, hleft⟩
  rw [decodeHw_eq_resultOf p cs (decVerdict_pad (decErr_decPushes p hcs) hpad), resultOf,
    (decPushes_tracks cs h hcs).pos, afterAll_params, State.resetWith_params, Nat.zero_add]

/-- Which texts are accepted, and what is made of them (R132, R171). -/
theorem decodeHw_eq_ok_iff (p : Params) (cs ys : List Byte) :
    decodeHw p cs = some (.ok ys) ↔
      (∀ c ∈ cs, validChar c = true) ∧ (p.strictPad = true → leftOver cs = 0) ∧
        ys = packDecode (cs.map charValue) := by
  constructor
  · intro h
    obtain ⟨hcs, hys⟩ := decodeHw_eq_ok h
    refine ⟨hcs, fun hstrict => ?_, hys.trans (decBytes_decodeProgram p hcs)⟩
    by_contra hleft
    simp [decodeHw_of_leftOver hcs hstrict hleft] at h
  · rintro ⟨hcs, hleft, rfl⟩
    have hpad : (afterAll (cs.map Instr.decPush) (State.resetWith p)).padFault = false := by
      rw [← Bool.not_eq_true, padFault_decPushes p hcs]
      exact fun ⟨hstrict, hne⟩ => hne (hleft hstrict)
    rw [decodeHw_eq_resultOf p cs (decVerdict_ok (decErr_decPushes p hcs) hpad),
      decBytes_decodeProgram p hcs, resultOf]

/-! ### Decoding what was encoded -/

theorem validChar_of_mem_packSyms {bits : List Bool} {c : Byte} (h : c ∈ packSyms bits) :
    validChar c = true := by
  rw [packSyms, List.mem_map] at h
  obtain ⟨g, -, rfl⟩ := h
  exact validChar_encRom _

/-- The values of the characters of a bit string spell it with its padding. -/
theorem bits_packSyms (bits : List Bool) :
    ((packSyms bits).map charValue).flatMap (bitsOf 5) = padToFive bits := by
  have hvalues : (packSyms bits).map charValue = (completeGroups 5 (padToFive bits)).map (valueOf 5) := by
    simp [packSyms, charValue_encRom]
  rw [hvalues, flatMap_bitsOf_completeGroups, length_padToFive, Nat.mul_div_cancel _ (by decide),
    ← length_padToFive, List.take_length]

/-- The padding of whole bytes is what is left over of their characters, and it is zero. -/
theorem leftOver_packSyms {bits : List Bool} (h : 8 ∣ bits.length) : leftOver (packSyms bits) = 0 := by
  have hpad : 5 * (packSyms bits).length % 8 = (5 - bits.length % 5) % 5 := by
    obtain ⟨k, hk⟩ := h
    have hpadded := length_padToFive bits
    rw [padToFive, List.length_append, List.length_replicate] at hpadded
    rw [length_packSyms, Nat.mul_comm, ← hpadded, hk, Nat.mul_add_mod, Nat.mod_eq_of_lt (by omega)]
  rw [leftOver, bits_packSyms, hpad, padToFive, bitsValue_append, bitsValue_replicate_false,
    List.length_replicate, Nat.add_zero, Nat.mul_mod_left]

/-- The padding completes no byte. -/
theorem packBytes_padToFive (bs : List Byte) : packBytes (padToFive (bs.flatMap (bitsOf 8))) = bs := by
  rw [packBytes, padToFive, completeGroups_flatMap_bitsOf (by decide),
    completeGroups_of_lt (by rw [List.length_replicate]; omega), List.map_nil, List.append_nil]

theorem decodeHw_encodeHw (p : Params) (bs : List Byte) : decodeHw p (encodeHw p bs) = some (.ok bs) := by
  rw [decodeHw_eq_ok_iff, encodeHw_eq_packSyms]
  refine ⟨fun c hc => validChar_of_mem_packSyms hc, fun _ => leftOver_packSyms ?_, ?_⟩
  · rw [length_flatMap_bitsOf]
    exact Nat.dvd_mul_right 8 _
  · rw [packDecode_eq_packBytes, bits_packSyms, packBytes_padToFive]

/-- Settles O49: the characters are valid, spell the bytes' bits and a zero padding shorter than a byte. -/
theorem decodeOfEncodeIsTheByteSequence : Obligations.DecodeOfEncodeIsTheByteSequence := decodeHw_encodeHw

/-! ### Encoding what was decoded -/

/-- The bits of a text with nothing left over are those of its complete bytes, then zeros. -/
theorem bits_eq_bytes_append_zeros {cs : List Byte} (h : leftOver cs = 0) :
    (cs.map charValue).flatMap (bitsOf 5) =
      (packDecode (cs.map charValue)).flatMap (bitsOf 8) ++ List.replicate (5 * cs.length % 8) false := by
  have hlen := length_flatMap_bitsOf (cs.map charValue)
  rw [List.length_map] at hlen
  rw [packDecode_eq_packBytes, packBytes, flatMap_bitsOf_completeGroups]
  rw [leftOver] at h
  generalize (cs.map charValue).flatMap (bitsOf 5) = bits at hlen h ⊢
  have hrest : (bits.drop (bits.length / 8 * 8)).length = 5 * cs.length % 8 := by
    rw [List.length_drop]
    omega
  have hzero : bitsValue (bits.drop (bits.length / 8 * 8)) = 0 := by
    rw [bitsValue_drop, ← List.length_drop, hrest, h]
  conv_lhs => rw [← List.take_append_drop (bits.length / 8 * 8) bits, eq_replicate_false hzero, hrest]

/-- A text of fewer than five left-over bits, all zero, is what its bytes are encoded to. -/
theorem encodeHw_packDecode (p : Params) {cs : List Byte} (h : leftOver cs = 0)
    (hlt : 5 * cs.length % 8 < 5) : encodeHw p (packDecode (cs.map charValue)) = cs.map canonicalChar := by
  have hpad : padToFive ((packDecode (cs.map charValue)).flatMap (bitsOf 8)) =
      (cs.map charValue).flatMap (bitsOf 5) := by
    rw [bits_eq_bytes_append_zeros h, padToFive, length_flatMap_bitsOf, length_packDecode, List.length_map]
    congr 2
    omega
  have hgroups := completeGroups_flatMap_bitsOf (k := 5) (by decide) (cs.map charValue) []
  rw [List.append_nil, completeGroups_of_lt (k := 5) (bits := []) (by decide), List.map_nil,
    List.append_nil] at hgroups
  calc
    encodeHw p (packDecode (cs.map charValue))
      = ((completeGroups 5 ((cs.map charValue).flatMap (bitsOf 5))).map (valueOf 5)).map encRom := by
        rw [encodeHw_eq_packSyms, packSyms, hpad, List.map_map]
        rfl
    _ = cs.map canonicalChar := by
        rw [hgroups, List.map_map]
        rfl

/-- Settles O60: the five lengths are those with fewer than five bits left over, which encoding pads again;
from five on, the left-over zeros hold one symbol more. -/
theorem reencodingGivesTheCanonicalText : Obligations.ReencodingGivesTheCanonicalText := by
  intro p cs ys hstrict h
  obtain ⟨-, hleft, rfl⟩ := (decodeHw_eq_ok_iff p cs ys).mp h
  simp only [List.mem_cons, List.not_mem_nil, or_false]
  refine ⟨fun hmem => encodeHw_packDecode p (hleft hstrict) (by omega), fun hmem => ?_⟩
  rw [length_encodeHw, length_packDecode, List.length_map]
  omega

/-! ### Prefixes -/

/-- What a command sequence has emitted stays, and what follows is appended. -/
theorem afterAll_append_events (is js : List Instr) (s : State) :
    (afterAll (is ++ js) s).events =
      (afterAll is s).events ++ (stepEvents js (afterAll is s)).flatten := by
  rw [afterAll_append, afterAll_events js]

theorem encodeProgram_append (bs later : List Byte) :
    encodeProgram (bs ++ later) = bs.map Instr.encPush ++ encodeProgram later := by
  simp [encodeProgram]

theorem decodeProgram_append (cs later : List Byte) :
    decodeProgram (cs ++ later) = cs.map Instr.decPush ++ decodeProgram later := by
  simp [decodeProgram]

theorem encSyms_encPushes (p : Params) (bs later : List Byte) :
    encSyms (eventsAfter (run (bs.map Instr.encPush) (State.resetWith p))) =
      (encodeHw p (bs ++ later)).take (8 * bs.length / 5) := by
  obtain ⟨-, hlen⟩ := encPushes_count bs (s := State.resetWith p) (by simp)
  rw [encodeHw, eventsAfter_run, eventsAfter_run, encodeProgram_append, afterAll_append_events,
    encSyms_append, List.take_left']
  simpa [encSyms] using hlen

theorem decBytes_decPushes (p : Params) {cs later ys : List Byte}
    (h : decodeHw p (cs ++ later) = some (.ok ys)) :
    decBytes (eventsAfter (run (cs.map Instr.decPush) (State.resetWith p))) =
      ys.take (5 * cs.length / 8) := by
  obtain ⟨hvalid, rfl⟩ := decodeHw_eq_ok h
  obtain ⟨-, hlen⟩ := decPushes_count cs (s := State.resetWith p) rfl
    fun c hc => hvalid c (List.mem_append_left _ hc)
  rw [eventsAfter_run, eventsAfter_run, decodeProgram_append, afterAll_append_events, decBytes_append,
    List.take_left']
  simpa [decBytes] using hlen

/-- Settles O59: later commands only append events, the counts give how many came before, and decoding undoes
encoding. -/
theorem outputsSoFarAreAPrefix : Obligations.OutputsSoFarAreAPrefix := by
  intro p
  refine ⟨encSyms_encPushes p, fun cs later ys => decBytes_decPushes p, fun bs bs' h => ?_⟩
  have hround := decodeHw_encodeHw p bs
  rw [h, decodeHw_encodeHw] at hround
  simpa using hround.symm

end Sys2Proof.Machine
end

section
/-! Which texts decode alike (spec/43_messages_and_laws.md R180 to R188), and the bounds of the values inside
one step (R176): the decoder reads a character through its table entry, and `STRICT_PAD` in the verdict
alone. -/

namespace Sys2Proof.Machine

/-! ### Codes the decoder does not tell apart -/

/-- One table entry; the code itself is read of an invalid character only, to report it (R201). -/
abbrev DecodesAs (c' c : Byte) : Prop := decRom c' = decRom c ∧ (validChar c = false → c' = c)

theorem DecodesAs.decPushState_eq {c' c : Byte} (h : DecodesAs c' c) (s : State) :
    decPushState c' s = decPushState c s := by
  obtain ⟨hrom, hinvalid⟩ := h
  cases hc : validChar c with
  | true =>
    have hvalid : romValid (decRom c) = true := hc
    simp only [decPushState, hrom, hvalid, if_true]
  | false => rw [hinvalid hc]

/-- A text in other codes for its characters has the same result. -/
theorem decodeHw_map {f : Byte → Byte} (hf : ∀ c, DecodesAs (f c) c) (p : Params) (cs : List Byte) :
    decodeHw p (cs.map f) = decodeHw p cs := by
  have hpushes (s : State) :
      afterAll ((cs.map f).map Instr.decPush) s = afterAll (cs.map Instr.decPush) s := by
    induction cs generalizing s with
    | nil => rfl
    | cons c cs ih => simp only [List.map_cons, afterAll_cons, after, (hf c).decPushState_eq, ih]
  rw [decodeHw, decodeHw, eventsAfter_run, eventsAfter_run, decodeProgram_events, decodeProgram_events,
    hpushes]

/-- R182: an invalid code is no letter, and a letter has one entry in both cases. -/
theorem decodesAs_upperChar (c : Byte) : DecodesAs (upperChar c) c := by
  revert c
  decide

theorem decodesAs_lowerChar (c : Byte) : DecodesAs (lowerChar c) c := by
  revert c
  decide

/-- R183: only valid codes are substituted, each by one with its entry. -/
theorem decodesAs_substituteChar (c : Byte) : DecodesAs (substituteChar c) c := by
  revert c
  decide

/-- Settles O55: both forms of a text are the text in other codes. -/
theorem decodingIgnoresCase : Obligations.DecodingIgnoresCase :=
  fun p cs => ⟨decodeHw_map decodesAs_upperChar p cs, decodeHw_map decodesAs_lowerChar p cs⟩

/-- Settles O56: both texts decode as their common substitution. -/
theorem decodingIgnoresAliases : Obligations.DecodingIgnoresAliases := by
  intro p cs cs' h
  rw [← decodeHw_map decodesAs_substituteChar p cs, h, decodeHw_map decodesAs_substituteChar]

/-! ### The first invalid character -/

theorem decodeRefFrom_invalid (strict : Bool) {pre : List Byte} {c : Byte} (post : List Byte)
    (hpre : ∀ x ∈ pre, validChar x = true) (hc : validChar c = false) (i acc n : Nat) (out : List Byte) :
    decodeRefFrom strict (pre ++ c :: post) i acc n out = .invalidChar (i + pre.length) c := by
  induction pre generalizing i acc n out with
  | nil => simp [decodeRefFrom, hc]
  | cons x pre ih =>
    obtain ⟨hx, hpre⟩ := List.forall_mem_cons.mp hpre
    have hlen : i + (x :: pre).length = i + 1 + pre.length := by rw [List.length_cons]; omega
    simp only [List.cons_append, decodeRefFrom, if_pos hx, ih hpre, hlen, ite_self]

/-- Settles O57: the reference stops at the first invalid character, by induction over those before it. -/
theorem firstInvalidCharacterIsReported : Obligations.FirstInvalidCharacterIsReported := by
  intro p pre post c hpre hc
  rw [decodeHw_eq_decodeRef_wrapPos, decodeRef, decodeRefFrom_invalid _ post hpre hc, Nat.zero_add]
  rfl

/-! ### Strict and lenient instances -/

/-- The same state with `STRICT_PAD` set to `strict`. -/
def State.withStrict (strict : Bool) (s : State) : State :=
  { s with params := { s.params with strictPad := strict } }

/-- R130: `DEC_PUSH` does not read `STRICT_PAD`. -/
theorem decPushState_withStrict (strict : Bool) (c : Byte) (s : State) :
    decPushState c (s.withStrict strict) = (decPushState c s).withStrict strict := by
  rcases decPushState_cases c s with ⟨h, e⟩ | ⟨h, hc, e⟩ | ⟨h, hc, hn, e⟩ | ⟨h, hc, hn, e⟩ <;> rw [e]
  · exact decPushState_ignored (s := s.withStrict strict) c h
  · exact decPushState_invalid (s := s.withStrict strict) c h hc
  · exact decPushState_noByte (s := s.withStrict strict) c h hc hn
  · exact decPushState_byte (s := s.withStrict strict) c h hc hn

theorem decPushes_withStrict (strict : Bool) (cs : List Byte) (s : State) :
    afterAll (cs.map Instr.decPush) (s.withStrict strict) =
      (afterAll (cs.map Instr.decPush) s).withStrict strict := by
  induction cs generalizing s with
  | nil => rfl
  | cons c cs ih => rw [List.map_cons, afterAll_cons, afterAll_cons, after, after, decPushState_withStrict, ih]

/-- The bytes of a decode message are sent by its characters. -/
theorem decBytes_decodeProgram_eq (p : Params) (cs : List Byte) :
    decBytes (eventsAfter (run (decodeProgram cs) (State.resetWith p))) =
      decBytes (afterAll (cs.map Instr.decPush) (State.resetWith p)).events := by
  obtain ⟨st, pos, c, hv⟩ := decVerdict_emits (afterAll (cs.map Instr.decPush) (State.resetWith p))
  rw [eventsAfter_run, decodeProgram_events, hv, State.emit_events, decBytes_append, decBytes_decEnd,
    List.append_nil]

/-- An error's verdict does not read `STRICT_PAD`. -/
theorem decodeHw_of_exists_invalid {cs : List Byte} (h : ∃ c ∈ cs, validChar c = false) (p : Params) :
    ∃ pos c, ∀ strict, decodeHw { p with strictPad := strict } cs = some (.invalidChar pos c) := by
  have hpushes := fun strict => decPushes_withStrict strict cs (State.resetWith p)
  have herr : (afterAll (cs.map Instr.decPush) (State.resetWith p)).decErr = true :=
    (decPushes_decErr_iff cs _).mpr (.inr h)
  generalize afterAll (cs.map Instr.decPush) (State.resetWith p) = t at hpushes herr
  refine ⟨t.decErrPos, t.decErrChar, fun strict => ?_⟩
  have hv := decVerdict_error (s := t.withStrict strict) herr
  rw [← hpushes] at hv
  rw [decodeHw_eq_resultOf { p with strictPad := strict } cs hv, hpushes]
  rfl

/-- What the two instances make of one text: the same, or a fault of the left-over bits and all bytes. -/
theorem decodeHw_strict_lenient (p : Params) (cs : List Byte) :
    (∃ r, decodeHw { p with strictPad := true } cs = some r ∧
      decodeHw { p with strictPad := false } cs = some r ∧ ∀ pos, r ≠ .nonzeroPad pos) ∨
    ((∃ pos, decodeHw { p with strictPad := true } cs = some (.nonzeroPad pos)) ∧
      (∀ c ∈ cs, validChar c = true) ∧
      decodeHw { p with strictPad := false } cs = some (.ok (packDecode (cs.map charValue)))) := by
  by_cases hcs : ∀ c ∈ cs, validChar c = true
  · have hlenient := (decodeHw_eq_ok_iff { p with strictPad := false } cs _).mpr ⟨hcs, by simp, rfl⟩
    by_cases hleft : leftOver cs = 0
    · exact .inl ⟨_, (decodeHw_eq_ok_iff _ cs _).mpr ⟨hcs, fun _ => hleft, rfl⟩, hlenient, by simp⟩
    · exact .inr ⟨⟨_, decodeHw_of_leftOver hcs rfl hleft⟩, hcs, hlenient⟩
  · obtain ⟨pos, c, h⟩ := decodeHw_of_exists_invalid (cs := cs) (by simpa using hcs) p
    exact .inl ⟨_, h true, h false, by simp⟩

/-- Settles O58: the characters send the same bytes in both instances, and the two verdicts are the same or
differ in the padding. -/
theorem strictAndLenientDifferInTheVerdictOnly : Obligations.StrictAndLenientDifferInTheVerdictOnly := by
  intro p cs strict lenient bytes
  have hbytes (b : Bool) :
      bytes b = decBytes (afterAll (cs.map Instr.decPush) (State.resetWith p)).events := by
    have hpushes := decPushes_withStrict b cs (State.resetWith p)
    exact (decBytes_decodeProgram_eq _ cs).trans (congrArg (fun s => decBytes s.events) hpushes)
  refine ⟨(hbytes true).trans (hbytes false).symm, ?_⟩
  obtain ⟨r, hstrict, hlenient, hr⟩ | ⟨⟨pos, hstrict⟩, hcs, hlenient⟩ := decodeHw_strict_lenient p cs
  · have hsame : lenient = strict := hlenient.trans hstrict.symm
    refine ⟨fun ys h => hsame.trans h, fun pos c h => hsame.trans h, fun pos h => ?_⟩
    exact absurd (Option.some_inj.mp (hstrict.symm.trans h)) (hr pos)
  · have hpack : bytes true = packDecode (cs.map charValue) := decBytes_decodeProgram _ hcs
    refine ⟨fun ys h => ?_, fun pos c h => ?_, fun pos _ => ?_⟩
    · cases hstrict.symm.trans h
    · cases hstrict.symm.trans h
    · exact ⟨hpack ▸ hlenient, length_decBytes_decodeProgram _ hcs⟩

/-! ### The values inside one step -/

theorem mul_two_pow_add_lt {a b n k : Nat} (ha : a < 2 ^ n) (hb : b < 2 ^ k) :
    a * 2 ^ k + b < 2 ^ (n + k) :=
  calc
    a * 2 ^ k + b < (a + 1) * 2 ^ k := by rw [Nat.succ_mul]; omega
    _ ≤ 2 ^ n * 2 ^ k := Nat.mul_le_mul_right _ ha
    _ = 2 ^ (n + k) := (pow_add 2 n k).symm

/-- Settles O43: joining the buffered bits and the operand adds up their widths, and the counts are bounded by
R27 and by the width of `dec_cnt`. -/
theorem transientValuesStayInBounds : Obligations.TransientValuesStayInBounds := by
  intro b v s ⟨hcnt, henc, hdec, _⟩ n m
  have hm := s.decCnt.isLt
  have hfinal : 0 < s.encCnt.toNat →
      (finalSym s.encAcc s.encCnt.toNat).toNat = s.encAcc.toNat * 2 ^ (5 - s.encCnt.toNat) := by
    intro _
    have hlt := mul_two_pow_add_lt henc (Nat.two_pow_pos (5 - s.encCnt.toNat))
    rw [Nat.add_sub_cancel' (by omega), Nat.add_zero] at hlt
    exact (finalSym_toNat _ _).trans (Nat.mod_eq_of_lt hlt)
  refine ⟨?_, (encShiftIn _ _).isLt, by omega, by omega, by omega, by omega, by omega, by omega, ?_,
    (decShiftIn _ _).isLt, by omega, by omega, by omega, by omega, (finalSym _ _).isLt, hfinal⟩
  · rw [encShiftIn_toNat]
    exact mul_two_pow_add_lt henc b.isLt
  · rw [decShiftIn_toNat]
    exact mul_two_pow_add_lt hdec v.isLt

/-! ### Fixed messages -/

/-- Settles O53: the encoder is on a group boundary, and the decoder has nothing left over. -/
theorem emptyInputGivesEmptyOutput : Obligations.EmptyInputGivesEmptyOutput := by
  intro p
  have hpad : (State.resetWith p).padFault = false := by
    rw [← Bool.not_eq_true, padFault_iff]
    simp
  have hdec : eventsAfter (run (decodeProgram []) (State.resetWith p)) = [.decEnd .ok 0 0x00] := by
    rw [eventsAfter_run, decodeProgram_events, List.map_nil, afterAll_nil, decVerdict_ok rfl hpad]
    rfl
  have henc : eventsAfter (run (encodeProgram []) (State.resetWith p)) = [.encEnd] := by
    rw [eventsAfter_run, encodeProgram, List.map_nil, List.nil_append, afterAll_cons, afterAll_nil, after,
      encEndState_boundary rfl]
    rfl
  exact ⟨by rw [encodeHw, henc]; rfl, by rw [decodeHw, hdec]; rfl, henc, hdec⟩

/-- Settles O54: the reference, which has no parameters, is evaluated. -/
theorem normativeVectors : Obligations.NormativeVectors := by
  intro p
  simp only [encodeHw_eq_encodeRef]
  decide

end Sys2Proof.Machine
end

section
/-! Reset and the output stage (spec/70_reset_and_hazards.md R231, R232, R241, R246). A core with `PIPE` = 1
is simulated by the one with `PIPE` = 0 and the same registers: no command reads `PIPE`, so after every cycle
the two differ in the output stage alone, and the output registers hold what the other core's ports carried. -/

namespace Sys2Proof.Machine

/-! ### Reset -/

/-- R231: whatever the state and the command port, the edge of a reset cycle clears all registers. -/
theorem exists_cycle_eq_next_of_rst {c : CycleIn} (h : c.rst = true) (s : State) :
    ∃ t, cycle c s = .next t ∧ t.regs = Regs.zero ∧ t.outReg = OutPorts.idle ∧ t.events = [] :=
  ⟨_, cycle_of_rst s h, rfl, ite_self _, rfl⟩

/-- Settles O11: a reset cycle clears the registers of any state, so also of one that a reset left. -/
theorem resetEdgeClearsEveryRegister : Obligations.ResetEdgeClearsEveryRegister := by
  intro c c' s hc hc'
  obtain ⟨t, ht, hregs, hout, hevents⟩ := exists_cycle_eq_next_of_rst hc s
  obtain ⟨u, hu⟩ := exists_cycle_eq_next_of_rst hc' t
  exact ⟨t, u, ht, hregs, hout, hevents, hu⟩

/-- Settles O12: the state a reset cycle leaves does not name its inputs, and its event list is empty. -/
theorem resetBeatsTheCommandPort : Obligations.ResetBeatsTheCommandPort := by
  intro c c' s hc hc'
  exact ⟨(cycle_of_rst s hc).trans (cycle_of_rst s hc').symm, _, cycle_of_rst s hc,
    fun h => by simp [h], fun h => by simp [h]⟩

/-! ### The output latency -/

/-- R241, R246: with `PIPE` = 1 the ports of a cycle are the output registers as they stood in it, whatever
its inputs. -/
theorem exists_cycle_eq_next_ports_eq_outReg {s : State} (h : s.params.pipe = true) (c : CycleIn) :
    ∃ t, cycle c s = .next t ∧ t.ports = s.outReg := by
  obtain ⟨t, ht, ⟨-, rfl⟩ | ⟨-, -, rfl⟩ | ⟨-, -, rfl⟩⟩ := cycle_cases c s <;>
    exact ⟨_, ht, by simp [h]⟩

/-- Settles O13: the cycle latches the command's event list, on the ports for `PIPE` = 0 and for `PIPE` = 1 in
the output registers, which the next cycle shows. -/
theorem outputLatencyIsPipeCycles : Obligations.OutputLatencyIsPipeCycles := by
  intro w s
  refine ⟨_, _, exec_eq_after (decode w) s.beginStep, cycle_of_cmd s rfl rfl, rfl, fun h => ?_, fun h c => ?_⟩
  · simp [h, present]
  · obtain ⟨v, hv, hports⟩ :=
      exists_cycle_eq_next_ports_eq_outReg
        (s := latchOutputs s (after (decode w) s.beginStep)) (by simp [h]) c
    exact ⟨v, hv, by simp [hports, h]⟩

/-! ### Both settings of `PIPE` side by side -/

/-- The same state of a core with `PIPE` = 1, with `o` in the output registers and `p` on the ports. -/
def State.piped (o p : OutPorts) (s : State) : State :=
  { s with params := { s.params with pipe := true }, outReg := o, ports := p }

/-- An encoder command reads the encoder registers alone. -/
theorem after_piped_of_half_encoder {i : Instr} (h : i.half = .encoder) (o p : OutPorts) (s : State) :
    after i (s.piped o p) = (after i s).piped o p :=
  (after_of_half_encoder h (s := s) (s' := s.piped o p) ⟨rfl, rfl⟩).trans
    (congrArg (State.piped o p) (after_of_half_encoder h (s := s) (s' := s) ⟨rfl, rfl⟩)).symm

theorem decPushState_piped (o p : OutPorts) (c : Byte) (s : State) :
    decPushState c (s.piped o p) = (decPushState c s).piped o p := by
  rcases decPushState_cases c s with ⟨h, e⟩ | ⟨h, hc, e⟩ | ⟨h, hc, hn, e⟩ | ⟨h, hc, hn, e⟩ <;> rw [e]
  · exact decPushState_ignored (s := s.piped o p) c h
  · exact decPushState_invalid (s := s.piped o p) c h hc
  · exact decPushState_noByte (s := s.piped o p) c h hc hn
  · exact decPushState_byte (s := s.piped o p) c h hc hn

theorem decVerdict_piped (o p : OutPorts) (s : State) :
    decVerdict (s.piped o p) = (decVerdict s).piped o p := by
  cases h : s.decErr with
  | true =>
    rw [decVerdict_error h]
    exact decVerdict_error (s := s.piped o p) h
  | false =>
    cases hp : s.padFault with
    | true =>
      rw [decVerdict_pad h hp]
      exact decVerdict_pad (s := s.piped o p) h hp
    | false =>
      rw [decVerdict_ok h hp]
      exact decVerdict_ok (s := s.piped o p) h hp

/-- R34: no command reads or writes `PIPE` or the output stage. -/
theorem after_piped (i : Instr) (o p : OutPorts) (s : State) :
    after i (s.piped o p) = (after i s).piped o p := by
  cases i with
  | nop d => rfl
  | encPush b => exact after_piped_of_half_encoder rfl o p s
  | encEnd d => exact after_piped_of_half_encoder rfl o p s
  | encClr d => exact after_piped_of_half_encoder rfl o p s
  | illegal100 d => rfl
  | decPush c => exact decPushState_piped o p c s
  | decEnd d => exact congrArg State.clearDec (decVerdict_piped o p s)
  | decClr d => rfl

/-- R241: at one edge the core with `PIPE` = 1 latches what the one with `PIPE` = 0 puts on its ports, and shows
what it had latched before. -/
theorem latchOutputs_piped {t : State} (ht : t.params.pipe = false) (s : State) (o p o' p' : OutPorts) :
    latchOutputs (s.piped o p) (t.piped o' p') = (latchOutputs s t).piped (latchOutputs s t).ports o := by
  have hports : (latchOutputs s t).ports = portsOf t.events := by simp [ht]
  rw [hports]
  rfl

/-- One cycle with the same inputs under both settings of `PIPE`. -/
theorem cycle_piped {s : State} (hs : s.params.pipe = false) (c : CycleIn) (o p : OutPorts) :
    ∃ t, cycle c s = .next t ∧ t.params.pipe = false ∧ cycle c (s.piped o p) = .next (t.piped t.ports o) := by
  obtain ⟨t, ht, ⟨hr, rfl⟩ | ⟨hr, hv, rfl⟩ | ⟨hr, hv, rfl⟩⟩ := cycle_cases c s
  · refine ⟨_, ht, hs, ?_⟩
    rw [cycle_of_rst _ hr, ← latchOutputs_piped (t := s.resetRegs) hs s o p OutPorts.idle OutPorts.idle]
    rfl
  · have hpipe : (after (decode c.cmd) s.beginStep).params.pipe = false := by simp [hs]
    refine ⟨_, ht, hpipe, ?_⟩
    rw [cycle_of_cmd _ hr hv, ← latchOutputs_piped hpipe s o p o p, ← after_piped]
    rfl
  · refine ⟨_, ht, hs, ?_⟩
    rw [cycle_of_idle _ hr hv, ← latchOutputs_piped (t := s.beginStep) hs s o p o p]
    rfl

/-! ### Waveforms -/

theorem waveform_cons {c : CycleIn} {s t : State} (h : cycle c s = .next t) (cs : List CycleIn) :
    waveform (c :: cs) s = t.ports :: waveform cs t := by
  simp only [waveform, h]

/-- No cycle stops the machine, so the ports carry a value in each. -/
theorem length_waveform (cs : List CycleIn) (s : State) : (waveform cs s).length = cs.length := by
  induction cs generalizing s with
  | nil => rfl
  | cons c cs ih =>
    obtain ⟨t, ht, -⟩ := cycle_cases c s
    rw [waveform_cons ht, List.length_cons, ih, List.length_cons]

/-- R241: the waveform with `PIPE` = 1 begins with what the output registers hold and goes on with that of
`PIPE` = 0. -/
theorem waveform_piped (cs : List CycleIn) {s : State} (hs : s.params.pipe = false) (o p : OutPorts) :
    waveform cs (s.piped o p) = (o :: waveform cs s).take cs.length := by
  induction cs generalizing s o p with
  | nil => rfl
  | cons c cs ih =>
    obtain ⟨t, ht, hpipe, htp⟩ := cycle_piped hs c o p
    rw [waveform_cons ht, waveform_cons htp, ih hpipe, List.length_cons, List.take_succ_cons]
    rfl

/-- Settles O14: the simulation started with no event in the output registers. -/
theorem pipelineDelaysEveryOutputByOneCycle : Obligations.PipelineDelaysEveryOutputByOneCycle :=
  fun cs s hs => ⟨length_waveform cs s, waveform_piped cs hs OutPorts.idle s.ports⟩

end Sys2Proof.Machine
end
